-- ==== Sys2Proof/Word.lean ====
section
/-! DEFINITION. The widths the PME works with (10_state.md R23, R29; 30_encoding.md R71). -/

namespace Sys2Proof

/-- A payload, data, statistics or status word: 32 bits. -/
abbrev Word := BitVec 32

/-- An opcode, seed, rate, quantisation or fault code: 8 bits. -/
abbrev Byte := BitVec 8

/-- A 16-bit field of the command word (`A`, `B`, `C`), or a field of a set word. -/
abbrev Half := BitVec 16

/-- A bank number field of the command word: 4 bits. -/
abbrev BankNo := BitVec 4

/-- A probability estimate, `P0` or `P1`: 15 bits (R23). -/
abbrev Estimate := BitVec 15

/-- A command word or a response word: 64 bits (R70, R74). -/
abbrev LongWord := BitVec 64

end Sys2Proof
end

