-- ==== Sys2Proof/Syntax.lean ====
section
/-! DEFINITION. The 23 commands of the PME (30_encoding.md R72) and the pair a host presents (R70). -/

namespace Sys2Proof

/-- What the host presents: the 64-bit command word and the input payload (R70). -/
structure Command where
  cw : LongWord
  pl : List Word
  deriving DecidableEq, Repr

/-- One constructor per row of spec/opcode_table.json. Operands are the bit slices of R75 before any interpretation: `qp`
is the byte that R75 reads as signed, a set, state or rate operand is the whole payload word. -/
inductive Instr where
  /-- Initialise one slot from QP and a seed (R102). -/
  | pinit (bank : BankNo) (off sub : Half) (qp seed : Byte)
  /-- Set the adaptation rate of one slot (R106). -/
  | prate (bank : BankNo) (off sub : Half) (rate : Byte)
  /-- Update one slot with an observed bin (R110). -/
  | pupd (bank : BankNo) (off sub : Half) (bin : Bool)
  /-- Read the state word of one slot (R113). -/
  | pget (bank : BankNo) (off sub : Half)
  /-- Write the state word of one slot; `word` is payload word 0 (R114). -/
  | pset (bank : BankNo) (off sub : Half) (word : Word)
  /-- Estimated bit cost of a bin (R120). -/
  | pest (bank : BankNo) (off sub : Half) (bin : Bool)
  /-- Combined estimate of one slot (R116). -/
  | pqry (bank : BankNo) (off sub : Half)
  /-- Read one byte of the initialization ROM (R135). -/
  | tget (off sub : Half) (initId : Byte)
  /-- Read the context count (R136). -/
  | tcnt
  /-- Read the set word of group `g` (R137). -/
  | tgrp (g : Half)
  /-- Merge context sets; `sets` is the payload (R140). -/
  | smrg (sets : List Word)
  /-- Construct a live bank (R151). -/
  | bnew (bank : BankNo)
  /-- Discard a bank (R152). -/
  | bfree (bank : BankNo)
  /-- Initialise a whole bank (R153). -/
  | binit (bank : BankNo) (qp initId : Byte)
  /-- Copy a whole bank (R155). -/
  | bcpy (dst src : BankNo)
  /-- Copy a range of slots between banks (R156). -/
  | bcpr (dst src : BankNo) (off size : Half)
  /-- Set the rates of all slots; `rates` is the payload (R161). -/
  | bwin (bank : BankNo) (rates : List Word)
  /-- Load the state words of all slots; `words` is the payload (R157). -/
  | bld (bank : BankNo) (words : List Word)
  /-- Save the state words of all slots (R158). -/
  | bsv (bank : BankNo) (len : Half)
  /-- Read a Golomb-Rice statistics word (R162). -/
  | grrd (bank : BankNo) (k : Half)
  /-- Write a Golomb-Rice statistics word; `value` is payload word 0 (R163). -/
  | grwr (bank : BankNo) (k : Half) (value : Word)
  /-- Renormalization lookup and shift (R190). -/
  | rnm (w : Byte)
  /-- Read a status register (R201). -/
  | rdsr (n : Half)
  deriving DecidableEq, Repr

/-! ### Pseudo-commands (R79) -/

/-- `SNAP dst, src`: take a snapshot. -/
def Instr.snap (dst src : BankNo) : Instr := .bcpy dst src

/-- `ROLLBACK dst, src`: re-assign a snapshot back. -/
def Instr.rollback (dst src : BankNo) : Instr := .bcpy dst src

/-- `DISCARD b`: drop a copy. -/
def Instr.discard (b : BankNo) : Instr := .bfree b

/-- `SLICEINIT b, qp, initId`: construct and initialise, in this order. -/
def Instr.sliceInit (b : BankNo) (qp initId : Byte) : List Instr := [.bnew b, .binit b qp initId]

end Sys2Proof
end

