-- ==== Sys2Proof/WellFormed.lean ====
section
/-! DEFINITION. Which terms of `Instr` a command word can carry: the length of a variable payload is the 16-bit field
`LEN` (30_encoding.md R73, R75). Every other operand has its field's width by its type. -/

namespace Sys2Proof

/-- The list fits the 16-bit field `LEN`. -/
abbrev fitsLen (l : List Word) : Bool := decide (l.length < 65536)

/-- The instruction has an encoding. -/
def Instr.wellFormed : Instr → Bool
  | .pinit _ _ _ _ _ => true
  | .prate _ _ _ _ => true
  | .pupd _ _ _ _ => true
  | .pget _ _ _ => true
  | .pset _ _ _ _ => true
  | .pest _ _ _ _ => true
  | .pqry _ _ _ => true
  | .tget _ _ _ => true
  | .tcnt => true
  | .tgrp _ => true
  | .smrg sets => fitsLen sets
  | .bnew _ => true
  | .bfree _ => true
  | .binit _ _ _ => true
  | .bcpy _ _ => true
  | .bcpr _ _ _ _ => true
  | .bwin _ rates => fitsLen rates
  | .bld _ words => fitsLen words
  | .bsv _ _ => true
  | .grrd _ _ => true
  | .grwr _ _ _ => true
  | .rnm _ => true
  | .rdsr _ => true

end Sys2Proof
end

