-- ==== Sys2Proof/Decode.lean ====
section
/-! DEFINITION. The command word's fields, the opcode map, decoding (total, rejecting by name) and encoding
(30_encoding.md R70 to R77). -/

namespace Sys2Proof

/-! ### The six fields (R71) -/

/-- `OPC`, bits [63:56]. -/
def fieldOpc (cw : LongWord) : Byte := cw.extractLsb' 56 8
/-- `BD`, bits [55:52]. -/
def fieldBd (cw : LongWord) : BankNo := cw.extractLsb' 52 4
/-- `BS`, bits [51:48]. -/
def fieldBs (cw : LongWord) : BankNo := cw.extractLsb' 48 4
/-- `A`, bits [47:32]. -/
def fieldA (cw : LongWord) : Half := cw.extractLsb' 32 16
/-- `B`, bits [31:16]. -/
def fieldB (cw : LongWord) : Half := cw.extractLsb' 16 16
/-- `C[15:8]`, bits [15:8]. -/
def fieldChi (cw : LongWord) : Byte := cw.extractLsb' 8 8
/-- `C[7:0]`, bits [7:0]. -/
def fieldClo (cw : LongWord) : Byte := cw.extractLsb' 0 8
/-- `C[0]`, bit 0. -/
def fieldBin (cw : LongWord) : Bool := cw.getLsbD 0

/-! ### The opcode map (R72, R76) -/

/-- The 23 assigned opcodes. -/
inductive Opcode where
  | pinit | prate | pupd | pget | pset | pest | pqry
  | tget | tcnt | tgrp | smrg
  | bnew | bfree | binit | bcpy | bcpr | bwin | bld | bsv | grrd | grwr
  | rnm
  | rdsr
  deriving DecidableEq, Repr

/-- Every opcode, in the table's order. -/
def Opcode.all : List Opcode :=
  [.pinit, .prate, .pupd, .pget, .pset, .pest, .pqry] ++ [.tget, .tcnt, .tgrp, .smrg] ++
  [.bnew, .bfree, .binit, .bcpy, .bcpr, .bwin, .bld, .bsv, .grrd, .grwr] ++ [.rnm, .rdsr]

/-- The opcode byte (R72, column OPC). -/
def Opcode.code : Opcode → Byte
  | .pinit => 0x10 | .prate => 0x11 | .pupd => 0x12 | .pget => 0x13 | .pset => 0x14 | .pest => 0x15 | .pqry => 0x16
  | .tget => 0x20 | .tcnt => 0x21 | .tgrp => 0x22 | .smrg => 0x23
  | .bnew => 0x30 | .bfree => 0x31 | .binit => 0x32 | .bcpy => 0x33 | .bcpr => 0x34 | .bwin => 0x35 | .bld => 0x36
  | .bsv => 0x37 | .grrd => 0x38 | .grwr => 0x39
  | .rnm => 0x40
  | .rdsr => 0x70

/-- The bits that must be zero: the columns of R72 that hold `-`. -/
def Opcode.reserved : Opcode → LongWord
  | .pinit => 0x000F000000000000
  | .prate => 0x000F00000000FF00
  | .pupd => 0x000F00000000FFFE
  | .pget => 0x000F00000000FFFF
  | .pset => 0x000F00000000FFFF
  | .pest => 0x000F00000000FFFE
  | .pqry => 0x000F00000000FFFF
  | .tget => 0x00FF00000000FF00
  | .tcnt => 0x00FFFFFFFFFFFFFF
  | .tgrp => 0x00FF0000FFFFFFFF
  | .smrg => 0x00FF0000FFFFFFFF
  | .bnew => 0x000FFFFFFFFFFFFF
  | .bfree => 0x000FFFFFFFFFFFFF
  | .binit => 0x000FFFFFFFFF0000
  | .bcpy => 0x0000FFFFFFFFFFFF
  | .bcpr => 0x000000000000FFFF
  | .bwin => 0x000F0000FFFFFFFF
  | .bld => 0x000F0000FFFFFFFF
  | .bsv => 0x000F0000FFFFFFFF
  | .grrd => 0x000F0000FFFFFFFF
  | .grwr => 0x000F0000FFFFFFFF
  | .rnm => 0x00FFFFFFFFFFFF00
  | .rdsr => 0x00FF0000FFFFFFFF

/-- How many payload words the command takes: 0, 1 or the value of field `A` (R73). -/
def Opcode.payloadLength (op : Opcode) (cw : LongWord) : Nat :=
  match op with
  | .pset => 1
  | .grwr => 1
  | .smrg => (fieldA cw).toNat
  | .bwin => (fieldA cw).toNat
  | .bld => (fieldA cw).toNat
  | _ => 0

/-- The command an opcode byte selects (R76: "by `OPC` alone"). -/
def Opcode.ofByte (b : Byte) : Option Opcode := Opcode.all.find? fun op => op.code == b

/-! ### Decoding (R76, R77) -/

/-- Why a command does not decode, in the order the checks are made (R213, step 2). Each is `IllegalCommand`. -/
inductive DecodeError where
  /-- `OPC` is not assigned. -/
  | unassignedOpcode
  /-- A reserved field of the command word is not zero. -/
  | reservedField
  /-- `|PL|` is not the length the command requires. -/
  | payloadLength
  deriving DecidableEq, Repr

/-- A command without payload. -/
def takeNone (pl : List Word) (i : Instr) : Except DecodeError Instr :=
  match pl with
  | [] => .ok i
  | _ :: _ => .error .payloadLength

/-- A command with exactly one payload word. -/
def takeOne (pl : List Word) (f : Word → Instr) : Except DecodeError Instr :=
  match pl with
  | [w] => .ok (f w)
  | _ => .error .payloadLength

/-- A command whose payload has `LEN` words, `LEN` in field `A`. -/
def takeLen (cw : LongWord) (pl : List Word) (f : List Word → Instr) : Except DecodeError Instr :=
  if pl.length = (fieldA cw).toNat then .ok (f pl) else .error .payloadLength

/-- The operands of R72 and R75, and the payload framing of R73. -/
def Opcode.assemble (op : Opcode) (cw : LongWord) (pl : List Word) : Except DecodeError Instr :=
  match op with
  | .pinit => takeNone pl (.pinit (fieldBd cw) (fieldA cw) (fieldB cw) (fieldChi cw) (fieldClo cw))
  | .prate => takeNone pl (.prate (fieldBd cw) (fieldA cw) (fieldB cw) (fieldClo cw))
  | .pupd => takeNone pl (.pupd (fieldBd cw) (fieldA cw) (fieldB cw) (fieldBin cw))
  | .pget => takeNone pl (.pget (fieldBd cw) (fieldA cw) (fieldB cw))
  | .pset => takeOne pl (.pset (fieldBd cw) (fieldA cw) (fieldB cw))
  | .pest => takeNone pl (.pest (fieldBd cw) (fieldA cw) (fieldB cw) (fieldBin cw))
  | .pqry => takeNone pl (.pqry (fieldBd cw) (fieldA cw) (fieldB cw))
  | .tget => takeNone pl (.tget (fieldA cw) (fieldB cw) (fieldClo cw))
  | .tcnt => takeNone pl .tcnt
  | .tgrp => takeNone pl (.tgrp (fieldA cw))
  | .smrg => takeLen cw pl .smrg
  | .bnew => takeNone pl (.bnew (fieldBd cw))
  | .bfree => takeNone pl (.bfree (fieldBd cw))
  | .binit => takeNone pl (.binit (fieldBd cw) (fieldChi cw) (fieldClo cw))
  | .bcpy => takeNone pl (.bcpy (fieldBd cw) (fieldBs cw))
  | .bcpr => takeNone pl (.bcpr (fieldBd cw) (fieldBs cw) (fieldA cw) (fieldB cw))
  | .bwin => takeLen cw pl (.bwin (fieldBd cw))
  | .bld => takeLen cw pl (.bld (fieldBd cw))
  | .bsv => takeNone pl (.bsv (fieldBd cw) (fieldA cw))
  | .grrd => takeNone pl (.grrd (fieldBd cw) (fieldA cw))
  | .grwr => takeOne pl (.grwr (fieldBd cw) (fieldA cw))
  | .rnm => takeNone pl (.rnm (fieldClo cw))
  | .rdsr => takeNone pl (.rdsr (fieldA cw))

/-- Decode a command: opcode, then reserved fields, then payload length (R213, step 2). -/
def decode (c : Command) : Except DecodeError Instr :=
  match Opcode.ofByte (fieldOpc c.cw) with
  | none => .error .unassignedOpcode
  | some op => if c.cw &&& op.reserved = 0 then op.assemble c.cw c.pl else .error .reservedField

/-! ### Encoding (R71, R72) -/

/-- The command word with the six fields of R71. -/
def packWord (op : Opcode) (bd bs : BankNo) (a b c : Half) : LongWord := op.code ++ bd ++ bs ++ a ++ b ++ c

/-- `C` with a byte in its low half and zero above. -/
def lowC (v : Byte) : Half := 0#8 ++ v

/-- `C` with a bin in bit 0 and zero above. -/
def binC (bin : Bool) : Half := 0#15 ++ BitVec.ofBool bin

/-- `LEN`: the length of a payload as field `A`. -/
def lenField (l : List Word) : Half := BitVec.ofNat 16 l.length

/-- The command that carries an instruction. -/
def encode : Instr → Command
  | .pinit b off sub qp seed => ⟨packWord .pinit b 0 off sub (qp ++ seed), []⟩
  | .prate b off sub rate => ⟨packWord .prate b 0 off sub (lowC rate), []⟩
  | .pupd b off sub bin => ⟨packWord .pupd b 0 off sub (binC bin), []⟩
  | .pget b off sub => ⟨packWord .pget b 0 off sub 0, []⟩
  | .pset b off sub word => ⟨packWord .pset b 0 off sub 0, [word]⟩
  | .pest b off sub bin => ⟨packWord .pest b 0 off sub (binC bin), []⟩
  | .pqry b off sub => ⟨packWord .pqry b 0 off sub 0, []⟩
  | .tget off sub initId => ⟨packWord .tget 0 0 off sub (lowC initId), []⟩
  | .tcnt => ⟨packWord .tcnt 0 0 0 0 0, []⟩
  | .tgrp g => ⟨packWord .tgrp 0 0 g 0 0, []⟩
  | .smrg sets => ⟨packWord .smrg 0 0 (lenField sets) 0 0, sets⟩
  | .bnew b => ⟨packWord .bnew b 0 0 0 0, []⟩
  | .bfree b => ⟨packWord .bfree b 0 0 0 0, []⟩
  | .binit b qp initId => ⟨packWord .binit b 0 0 0 (qp ++ initId), []⟩
  | .bcpy dst src => ⟨packWord .bcpy dst src 0 0 0, []⟩
  | .bcpr dst src off size => ⟨packWord .bcpr dst src off size 0, []⟩
  | .bwin b rates => ⟨packWord .bwin b 0 (lenField rates) 0 0, rates⟩
  | .bld b words => ⟨packWord .bld b 0 (lenField words) 0 0, words⟩
  | .bsv b len => ⟨packWord .bsv b 0 len 0 0, []⟩
  | .grrd b k => ⟨packWord .grrd b 0 k 0 0, []⟩
  | .grwr b k value => ⟨packWord .grwr b 0 k 0 0, [value]⟩
  | .rnm w => ⟨packWord .rnm 0 0 0 0 (lowC w), []⟩
  | .rdsr n => ⟨packWord .rdsr 0 0 n 0 0, []⟩

/-! ### The words of spec/opcode_table.json -/

/-- The payload of a command given as one number: payload word `j` is bits `64 + 32j` and up (log 12). -/
def payloadOf (w len : Nat) : List Word := (List.range len).map fun j => BitVec.ofNat 32 (w >>> (64 + 32 * j))

/-- The command whose bits are the low `nbits` bits of `w`, every bit above them zero: the command word is bits 63..0 and
the payload, as long as the command requires, follows it (log 12). -/
def tableCommand (nbits w : Nat) : Command :=
  let v := w % 2 ^ nbits
  let cw := BitVec.ofNat 64 v
  match Opcode.ofByte (fieldOpc cw) with
  | none => ⟨cw, []⟩
  | some op => ⟨cw, payloadOf v (op.payloadLength cw)⟩

/-- The instruction the decoder reads from a word of the opcode table. -/
def decodeTableWord (nbits w : Nat) : Option Instr :=
  match decode (tableCommand nbits w) with
  | .ok i => some i
  | .error _ => none

end Sys2Proof
end

