-- ==== Sys2Proof/Config.lean ====
section
/-! DEFINITION. The configuration `CFG` of the PME (00_scope.md R6), what makes one well-formed (70_reset_and_hazards.md
R242), and the free values. `CFG` is not state: no command and no reset changes it (R6, R241). -/

namespace Sys2Proof

/-- The two adaptation shifts of a rate byte, `(r0, r1)` (41_probability_model.md R107). -/
structure RatePair where
  r0 : Nat
  r1 : Nat
  deriving DecidableEq, Repr

/-- The cost of coding bin 0 and bin 1 in one row of `BIT_COST` (R120). -/
structure CostRow where
  bin0 : Word
  bin1 : Word
  deriving DecidableEq, Repr

/-- One column of `INIT_ROM`: the four bytes registered for one context (42_context_catalog.md R130). Rows 0, 1, 2 are
the slice type I, P, B seeds and row 3 the rate (R138). -/
structure ContextEntry where
  seedI : Byte
  seedP : Byte
  seedB : Byte
  rate : Byte
  deriving DecidableEq, Repr

/-- A set word's two fields: one ContextSet (10_state.md R28). -/
structure ContextSet where
  offset : Half
  size : Half
  deriving DecidableEq, Repr

/-- `CFG` (R6). The fixed-size tables are vectors indexed by the narrow index the rules give them: `STATE_TO_COUNT` by the
7-bit initial-state index, `RATE_PAIR` by the rate byte, `BIT_COST` by `Q8`, `RENORM_TABLE` by the 5-bit class.
`INIT_ROM` is held as its columns. -/
structure Config where
  /-- `PREC0`: significant bits of `P0`. -/
  prec0 : Nat
  /-- `PREC1`: significant bits of `P1`. -/
  prec1 : Nat
  /-- `QP_MAX`. -/
  qpMax : Nat
  /-- `STATE_TO_COUNT[0..127]`. -/
  stateToCount : Vector Estimate 128
  /-- `RATE_PAIR`, a function of the byte alone (R107 a); `none` outside its valid range. -/
  ratePairs : Vector (Option RatePair) 256
  /-- `BIT_COST[0..255][0..1]`. -/
  bitCost : Vector CostRow 256
  /-- `COST_SCALE_BITS`. -/
  costScaleBits : Nat
  /-- `RENORM_TABLE[0..31]`, each entry 0..7. -/
  renormTable : Vector (BitVec 3) 32
  /-- `INIT_ROM[0..3][0..NCTX-1]`, one element per context. -/
  initRom : List ContextEntry
  /-- `GROUPS[0..NGRP-1]`. -/
  groups : List ContextSet
  /-- `CNU`, the "context not used" sentinel; no behaviour depends on it (R134). -/
  cnu : Byte
  /-- `NBANK`. -/
  nbank : Nat
  /-- `NGR`. -/
  ngr : Nat
  deriving DecidableEq, Repr

/-- `NCTX`, the total registered context count: every row of `INIT_ROM` has this length (R6, R130). -/
def Config.nctx (c : Config) : Nat := c.initRom.length

/-- `NGRP`, the number of registered groups (R6). -/
def Config.ngrp (c : Config) : Nat := c.groups.length

/-- The sets follow each other without a gap from `start` to `stop` (R131). -/
def contiguous (start stop : Nat) : List ContextSet → Prop
  | [] => start = stop
  | g :: gs => g.offset.toNat = start ∧ contiguous (start + g.size.toNat) stop gs

/-- The well-formedness rules that R242 lists. A configuration that breaks them is not modelled (U17): where a
statement needs one of them it takes `WF` as a premise. -/
structure Config.WF (c : Config) : Prop where
  /-- R6: `PREC0` is in 1..15. -/
  prec0_range : 1 ≤ c.prec0 ∧ c.prec0 ≤ 15
  /-- R6: `PREC1` is in 1..15. -/
  prec1_range : 1 ≤ c.prec1 ∧ c.prec1 ≤ 15
  /-- R6: `QP_MAX` is in 0..127. -/
  qpMax_range : c.qpMax ≤ 127
  /-- R104 (a): the four printed entries. -/
  count_literals : c.stateToCount[0] = 614#15 ∧ c.stateToCount[63] = 16384#15 ∧ c.stateToCount[64] = 16384#15 ∧
    c.stateToCount[127] = 32153#15
  /-- R104 (b): non-decreasing. -/
  count_monotone : ∀ j (h : j + 1 < 128), c.stateToCount[j].toNat ≤ c.stateToCount[j + 1].toNat
  /-- R104 (c): symmetric, with the correction 1 at the midpoint pair only. -/
  count_symmetric : ∀ j (h : j < 128),
    c.stateToCount[j].toNat + c.stateToCount[127 - j].toNat = if j = 63 ∨ j = 64 then 32768 else 32767
  /-- R104 (d): strictly inside `(0, PROB_MAX)`. -/
  count_interior : ∀ j (h : j < 128), 1 ≤ c.stateToCount[j].toNat ∧ c.stateToCount[j].toNat ≤ 32766
  /-- R107 (e): every shift is in 1..15. -/
  shift_range : ∀ w (h : w < 256) p, c.ratePairs[w] = some p → 1 ≤ p.r0 ∧ p.r0 ≤ 15 ∧ 1 ≤ p.r1 ∧ p.r1 ≤ 15
  /-- R107 (d): the two printed rates have a pair. -/
  printed_rates : c.ratePairs[5] ≠ none ∧ c.ratePairs[8] ≠ none
  /-- R132 (and R107 d): every byte of row 3 of `INIT_ROM` is a valid rate. -/
  rom_rates : ∀ e ∈ c.initRom, c.ratePairs[e.rate.toNat] ≠ none
  /-- R121: in rows 0..127 bin 1 is the less likely one and costs at least as much. -/
  cost_low : ∀ q (h : q < 128), c.bitCost[q].bin0.toNat ≤ c.bitCost[q].bin1.toNat
  /-- R121: in rows 128..255 bin 0 costs at least as much. -/
  cost_high : ∀ q (h : q < 256), 128 ≤ q → c.bitCost[q].bin1.toNat ≤ c.bitCost[q].bin0.toNat
  /-- R121: both costs are strictly positive. -/
  cost_positive : ∀ q (h : q < 256), 1 ≤ c.bitCost[q].bin0.toNat ∧ 1 ≤ c.bitCost[q].bin1.toNat
  /-- R6: `COST_SCALE_BITS` is in 0..31. -/
  scale_range : c.costScaleBits ≤ 31
  /-- R131: `1 <= NCTX <= 65535`. -/
  nctx_range : 1 ≤ c.nctx ∧ c.nctx ≤ 65535
  /-- R6: `NGRP` is in 1..65535. -/
  ngrp_range : 1 ≤ c.ngrp ∧ c.ngrp ≤ 65535
  /-- R131: the groups start at 0, follow each other, and end at `NCTX`. -/
  groups_cover : contiguous 0 c.nctx c.groups
  /-- R6: `NBANK` is in 2..16. -/
  nbank_range : 2 ≤ c.nbank ∧ c.nbank ≤ 16
  /-- R6: `NGR` is in 1..65535. -/
  ngr_range : 1 ≤ c.ngr ∧ c.ngr ≤ 65535

/-! ### Free values

Each is a constant with no body: nothing in Lean can evaluate it, and a claim holds whatever it is. -/

/-- What the OPEN table `BIT_COST` of the fixture is made from (R6, R7, D10; log 5). -/
opaque Config.freeCost : Nat → Word

/-- The OPEN sentinel `CNU` of the fixture (R6, R7, N5; log 5). -/
opaque Config.freeSentinel : Byte

/-- U15: the response word of a command in progress when reset is asserted is any value (log 8). -/
opaque Config.freeResponseWord : Nat → LongWord

/-- U15: its output payload likewise (log 8). -/
opaque Config.freeOutput : Nat → List Word

end Sys2Proof
end

