-- ==== Sys2Proof/Machine/Tables.lean ====
section
/-! DEFINITION. The tables of a configuration: the defaults of 00_scope.md R6, registration (42_context_catalog.md R130),
the field masks, and the one concrete configuration of R7. -/

namespace Sys2Proof.Machine

open Sys2Proof

/-- `MASK0`, `MASK1`: the `prec` most significant of 15 bits (R6). -/
def fieldMask (prec : Nat) : Estimate := BitVec.ofNat 15 ((2 ^ prec - 1) <<< (15 - prec))

/-- Table T1 (41_probability_model.md R104), row by row; four entries are the source's, the rest the spec takes from general
knowledge (log 6). -/
def tableT1 : List Estimate :=
  [614, 647, 681, 718, 756, 797, 839, 884, 932, 982, 1034, 1089, 1148, 1209, 1274, 1342] ++
  [1414, 1490, 1569, 1653, 1742, 1835, 1933, 2037, 2146, 2261, 2382, 2509, 2643, 2785, 2934, 3091] ++
  [3256, 3430, 3614, 3807, 4011, 4225, 4452, 4690, 4941, 5205, 5483, 5777, 6086, 6412, 6755, 7116] ++
  [7497, 7898, 8320, 8766, 9235, 9729, 10249, 10798, 11375, 11984, 12625, 13300, 14012, 14762, 15551, 16384] ++
  [16384, 17216, 18005, 18755, 19467, 20142, 20783, 21392, 21969, 22518, 23038, 23532, 24001, 24447, 24869, 25270] ++
  [25651, 26012, 26355, 26681, 26990, 27284, 27562, 27826, 28077, 28315, 28542, 28756, 28960, 29153, 29337, 29511] ++
  [29676, 29833, 29982, 30124, 30258, 30385, 30506, 30621, 30730, 30834, 30932, 31025, 31114, 31198, 31277, 31353] ++
  [31425, 31493, 31558, 31619, 31678, 31733, 31785, 31835, 31883, 31928, 31970, 32011, 32049, 32086, 32120, 32153]

/-- The default `RATE_PAIR` (R108; log 6). -/
def defaultRatePair (w : Nat) : Option RatePair :=
  if 15 < w then none
  else if 9 < 3 + (2 + w / 4) + w % 4 then none
  else some ⟨2 + w / 4, 3 + (2 + w / 4) + w % 4⟩

/-- `bitlength(k)` (00_scope.md R8). -/
def bitLength (k : Nat) : Nat := if k = 0 then 0 else Nat.log2 k + 1

/-- The default `RENORM_TABLE[c] = 6 - bitlength(c)` (44_renorm.md R191; log 6). -/
def defaultShift (c : Nat) : BitVec 3 := BitVec.ofNat 3 (6 - bitLength c)

/-- `RATE_PAIR` of a byte. -/
def ratePair (c : Config) (w : Byte) : Option RatePair := c.ratePairs[w.toNat]'w.isLt

/-- A rate byte is valid when it has a pair (R106). -/
def validRate (c : Config) (w : Byte) : Bool := (ratePair c w).isSome

/-! ### Registration (R130) -/

/-- `GROUPS` from the ordered registration list: each group starts where the one before it ends. -/
def groupsFrom (offset : Nat) : List (List ContextEntry) → List ContextSet
  | [] => []
  | g :: gs => ⟨BitVec.ofNat 16 offset, BitVec.ofNat 16 g.length⟩ :: groupsFrom (offset + g.length) gs

/-- The catalogue part of a configuration is the result of registering `reg` in order (R130). -/
def registerAll (c : Config) (reg : List (List ContextEntry)) : Config :=
  { c with groups := groupsFrom 0 reg, initRom := reg.flatten }

/-! ### The fixture (R7) -/

/-- The one printed context group, the skip flag: I row, P row, B row, rate row (R7). -/
def skipFlagGroup : List ContextEntry := [⟨197, 197, 40, 5⟩, ⟨214, 198, 138, 8⟩, ⟨216, 185, 154, 8⟩]

/-- The cheaper of two free costs, at least 1. -/
def cheaperCost (q : Nat) : Word :=
  BitVec.ofNat 32 (max 1 (min (Config.freeCost (2 * q)).toNat (Config.freeCost (2 * q + 1)).toNat))

/-- The dearer of two free costs, at least 1. -/
def dearerCost (q : Nat) : Word :=
  BitVec.ofNat 32 (max 1 (max (Config.freeCost (2 * q)).toNat (Config.freeCost (2 * q + 1)).toNat))

/-- A row of "any table meeting rule R121": free but for the order and the sign of the two costs (log 5). -/
def freeCostRow (q : Nat) : CostRow :=
  if q < 128 then ⟨cheaperCost q, dearerCost q⟩ else ⟨dearerCost q, cheaperCost q⟩

/-- `CFG_EX1` (R7): every default of R6, the OPEN fields as R7 gives them, `BIT_COST` and `CNU` free. -/
def example1 : Config :=
  registerAll
    { prec0 := 15
      prec1 := 15
      qpMax := 63
      stateToCount := ⟨⟨tableT1⟩, rfl⟩
      ratePairs := Vector.ofFn fun w => defaultRatePair w.val
      bitCost := Vector.ofFn fun q => freeCostRow q.val
      costScaleBits := 15
      renormTable := Vector.ofFn fun c => defaultShift c.val
      initRom := []
      groups := []
      cnu := Config.freeSentinel
      nbank := 4
      ngr := 4 }
    [skipFlagGroup]

end Sys2Proof.Machine
end

