-- ==== Sys2Proof/Machine/State.lean ====
section
/-! DEFINITION. The state of the PME (10_state.md), its value after reset (R39, R240), and the reasons a step can stop. -/

namespace Sys2Proof.Machine

open Sys2Proof

/-- One ProbabilityModel: the fast estimate, the slow estimate and the rate byte (R23). -/
structure Slot where
  /-- `P0`. -/
  p0 : Estimate
  /-- `P1`. -/
  p1 : Estimate
  /-- `W`. -/
  w : Byte
  deriving DecidableEq, Repr

/-- A live bank: one CodingContext (R29). In a state of the right shape it has `NCTX` slots and `NGR` words. -/
structure Bank where
  /-- `SLOT[0..NCTX-1]`. -/
  slots : List Slot
  /-- `GR[0..NGR-1]`. -/
  gr : List Word
  deriving DecidableEq, Repr

/-- A response: the 64-bit response word and the output payload (30_encoding.md R74). -/
structure Response where
  rw : LongWord
  out : List Word
  deriving DecidableEq, Repr

/-- What the host does to the PME: presents a command (R70), or asserts the reset input, between commands or while a
command is in progress (70_reset_and_hazards.md R240, U15). -/
inductive Input where
  | command (c : Command)
  | reset
  | resetDuring (c : Command)
  deriving DecidableEq, Repr

/-- The whole state. The first five fields after `cfg` are the spec's (R39); `cfg` is the configuration, which nothing
changes (R6; log 3); the last three are the model's own (log 1, 2, 8). -/
structure State where
  /-- `CFG`. -/
  cfg : Config
  /-- `BANK[0..NBANK-1]`; a bank with `LIVE = 0` is absent (R30). -/
  banks : List (Option Bank)
  /-- `FCODE` (R33). -/
  fcode : Byte
  /-- `FINFO0` (R33). -/
  finfo0 : Word
  /-- `FINFO1` (R33). -/
  finfo1 : Word
  /-- `HALT` (R33). -/
  halt : Bool
  /-- What the host will present next, oldest first (log 1). -/
  inputs : List Input
  /-- The responses delivered so far, oldest first (R74, R251; log 2). -/
  responses : List Response
  /-- How many free responses have been taken (U15; log 8). -/
  freeCount : Nat
  deriving DecidableEq, Repr

/-- No reason to stop with a fault exists: every contract violation of the PME is a NEXT state with `HALT = 1`
(60_exceptions.md R214), and every command word is defined (30_encoding.md R77). Nothing raises one, which is safe (log 9). -/
inductive Fault where
  deriving DecidableEq, Repr

/-- Why a step refuses. -/
inductive Refusal where
  /-- Raised by an arm of `exec` whose instruction has no meaning yet; safe. No arm does. -/
  | notModelled (mnemonic : String)
  deriving DecidableEq, Repr

/-- Right after reset (R39, R240): every bank dummy, the fault registers 0, not halted; under the fixture `CFG_EX1`
(R7; log 4), with nothing presented and nothing answered. -/
def State.reset : State where
  cfg := example1
  banks := List.replicate example1.nbank none
  fcode := 0
  finfo0 := 0
  finfo1 := 0
  halt := false
  inputs := []
  responses := []
  freeCount := 0

end Sys2Proof.Machine
end

