-- ==== Sys2Proof/Machine/Operands.lean ====
section
/-! DEFINITION. How operands are read (30_encoding.md R75): the slot index, the signed and clipped QP, set words, state
words, rate bytes and table rows. -/

namespace Sys2Proof.Machine

open Sys2Proof

/-- `clip(x, lo, hi)` (00_scope.md R8). -/
def clip (x lo hi : Int) : Int := if x < lo then lo else if hi < x then hi else x

/-- `qpc = clip(sext_8(qp), 0, QP_MAX)` (R75, 41_probability_model.md R101). -/
def clippedQp (c : Config) (qp : Byte) : Int := clip qp.toInt 0 c.qpMax

/-- `idx(off, sub) = off + sub`, without wrap (00_scope.md R10). -/
def slotIndex (off sub : Half) : Nat := off.toNat + sub.toNat

/-! ### Set words (10_state.md R28) -/

/-- Bits [15:0] are the offset, bits [31:16] the size. -/
def setOfWord (w : Word) : ContextSet := ⟨w.extractLsb' 0 16, w.extractLsb' 16 16⟩

/-- The set word of a set. -/
def wordOfSet (s : ContextSet) : Word := s.size ++ s.offset

/-- `offset + size`, without wrap: one past the last slot named. -/
def setEnd (s : ContextSet) : Nat := s.offset.toNat + s.size.toNat

/-- A set word is valid when `offset + size <= NCTX`. -/
def validSet (c : Config) (w : Word) : Bool := decide (setEnd (setOfWord w) ≤ c.nctx)

/-! ### State words (R24, R25) -/

/-- `0 || P1 || 0 || P0`. -/
def stateWord (s : Slot) : Word := 0#1 ++ s.p1 ++ 0#1 ++ s.p0

/-- Store a 32-bit word into a slot: each field masked to its precision, `W` kept, bits 15 and 31 ignored. -/
def storeWord (c : Config) (w : Word) (s : Slot) : Slot :=
  { s with p0 := w.extractLsb' 0 15 &&& fieldMask c.prec0, p1 := w.extractLsb' 16 15 &&& fieldMask c.prec1 }

/-! ### Rates (43_context_banks.md R161) -/

/-- `rate = v[7:0]`; the bits above are ignored. -/
def rateOfWord (v : Word) : Byte := v.extractLsb' 0 8

/-- The first byte with no rate pair, with its index counted from `i` (60_exceptions.md R213, step 6). -/
def firstBadRate (c : Config) (i : Nat) : List Byte → Option (Nat × Byte)
  | [] => none
  | r :: rs => if validRate c r then firstBadRate c (i + 1) rs else some (i, r)

/-! ### Rows of the initialization ROM (42_context_catalog.md R138) -/

/-- The four rows. -/
inductive RomRow where
  | seedI | seedP | seedB | rate
  deriving DecidableEq, Repr

/-- The row an `initId` selects; ids 4 and above do not exist. -/
def romRow (initId : Byte) : Option RomRow :=
  if initId = 0 then some .seedI else if initId = 1 then some .seedP else if initId = 2 then some .seedB
  else if initId = 3 then some .rate else none

/-- The row `BINIT` seeds from: ids 0, 1, 2 (43_context_banks.md R153, D20). -/
def seedRow (initId : Byte) : Option RomRow := if 3 ≤ initId.toNat then none else romRow initId

/-- The byte of a column in a row. -/
def romByte (row : RomRow) (e : ContextEntry) : Byte :=
  match row with
  | .seedI => e.seedI
  | .seedP => e.seedP
  | .seedB => e.seedB
  | .rate => e.rate

end Sys2Proof.Machine
end

