-- ==== Sys2Proof/Machine/Flags.lean ====
section
/-! DEFINITION. The PME has no flags (10_state.md R22). This file holds what stands in their place: the quantities derived
from a slot (R27), and the status bits and registers (R32, R33, 60_exceptions.md R217). -/

namespace Sys2Proof.Machine

open Sys2Proof

/-- `SUM = P0 + P1`, 16 bits (R27). -/
def slotSum (s : Slot) : BitVec 16 := s.p0.setWidth 16 + s.p1.setWidth 16

/-- `Q8 = SUM >> 8` (R27). -/
def slotQ8 (s : Slot) : Byte := (slotSum s).extractLsb' 8 8

/-- The `LIVE` bits as a number, bit `b` for `BANK[b]` (R32, register 5). -/
def liveBits : List (Option Bank) → Nat
  | [] => 0
  | b :: bs => b.isSome.toNat + 2 * liveBits bs

/-- The `FAULT` output, equal to `HALT` at all times (R217). -/
def State.faultOutput (s : State) : Bool := s.halt

/-- The ten status registers, laid out as R32 gives them; none for a number of 10 or more (R53). -/
def statusRegister (s : State) (n : Half) : Option Word :=
  match n.toNat with
  | 0 => some ((BitVec.ofNat 16 s.cfg.nctx).setWidth 32)
  | 1 => some ((BitVec.ofNat 5 s.cfg.nbank).setWidth 32)
  | 2 => some ((BitVec.ofNat 16 s.cfg.ngrp).setWidth 32)
  | 3 => some ((BitVec.ofNat 16 s.cfg.ngr).setWidth 32)
  | 4 => some ((BitVec.ofNat 7 s.cfg.qpMax).setWidth 32)
  | 5 => some (BitVec.ofNat 32 (liveBits s.banks))
  | 6 => some (0#23 ++ BitVec.ofBool s.halt ++ s.fcode)
  | 7 => some s.finfo0
  | 8 => some s.finfo1
  | 9 => some (0#19 ++ BitVec.ofNat 5 s.cfg.costScaleBits ++ BitVec.ofNat 4 s.cfg.prec1 ++ BitVec.ofNat 4 s.cfg.prec0)
  | _ => none

end Sys2Proof.Machine
end

