-- ==== Sys2Proof/Machine/Ops.lean ====
section
/-! DEFINITION. The shared operations: responding, fault entry, reset, the common checks, and writing banks and slots
(60_exceptions.md, 30_encoding.md R74, 41_probability_model.md R100, 43_context_banks.md R150). -/

namespace Sys2Proof.Machine

open Sys2Proof

/-- How a step ends. -/
abbrev Result := Host.Outcome State Fault Refusal

/-! ### Responses (R74) -/

/-- `ST || 0 || DATA`. -/
def responseWord (st : Byte) (data : Word) : LongWord := st ++ 0#24 ++ data

/-- Deliver one response. -/
def State.respond (s : State) (st : Byte) (data : Word) (out : List Word) : State :=
  { s with responses := s.responses ++ [⟨responseWord st data, out⟩] }

/-- `RSP(OK, data, out)` ends the command. -/
def finish (s : State) (data : Word) (out : List Word) : Result := .next (s.respond 0x00 data out)

/-- `RSP(OK, 0)` ends the command. -/
def done (s : State) : Result := finish s 0 []

/-! ### Faults (R211, R214) -/

/-- The ten contract violations, each with what its two information words are made of (R211). -/
inductive Violation where
  | illegalCommand (cw : LongWord)
  | badBank (bank : BankNo) (nbank : Nat)
  | dummyContext (bank : BankNo)
  | sizeMismatch (nctx len : Nat)
  | badInitId (initId : Byte)
  | badIndex (index nctx : Nat)
  | badRate (index : Nat) (rate : Byte)
  | badSet (set : Word) (nctx : Nat)
  | badGroup (g : Half) (ngrp : Nat)
  | badStat (k : Half) (ngr : Nat)
  deriving DecidableEq, Repr

/-- The fault code (R211). -/
def Violation.code : Violation → Byte
  | .illegalCommand _ => 0x01
  | .badBank _ _ => 0x02
  | .dummyContext _ => 0x03
  | .sizeMismatch _ _ => 0x04
  | .badInitId _ => 0x05
  | .badIndex _ _ => 0x06
  | .badRate _ _ => 0x07
  | .badSet _ _ => 0x08
  | .badGroup _ _ => 0x09
  | .badStat _ _ => 0x0A

/-- `FINFO0` (R211), zero-extended to 32 bits. -/
def Violation.info0 : Violation → Word
  | .illegalCommand cw => cw.extractLsb' 32 32
  | .badBank bank _ => bank.setWidth 32
  | .dummyContext bank => bank.setWidth 32
  | .sizeMismatch nctx _ => BitVec.ofNat 32 nctx
  | .badInitId initId => initId.setWidth 32
  | .badIndex index _ => BitVec.ofNat 32 index
  | .badRate index _ => BitVec.ofNat 32 index
  | .badSet set _ => set
  | .badGroup g _ => g.setWidth 32
  | .badStat k _ => k.setWidth 32

/-- `FINFO1` (R211), zero-extended to 32 bits. -/
def Violation.info1 : Violation → Word
  | .illegalCommand cw => cw.extractLsb' 0 32
  | .badBank _ nbank => BitVec.ofNat 32 nbank
  | .dummyContext _ => 0
  | .sizeMismatch _ len => BitVec.ofNat 32 len
  | .badInitId _ => 0
  | .badIndex _ nctx => BitVec.ofNat 32 nctx
  | .badRate _ rate => rate.setWidth 32
  | .badSet _ nctx => BitVec.ofNat 32 nctx
  | .badGroup _ ngrp => BitVec.ofNat 32 ngrp
  | .badStat _ ngr => BitVec.ofNat 32 ngr

/-- Fault entry (R214): the code, the two information words, `HALT`, the response; nothing else changes. -/
def State.enterFault (s : State) (v : Violation) : State :=
  { s with fcode := v.code, finfo0 := v.info0, finfo1 := v.info1, halt := true }.respond v.code v.info0 []

/-- `raise`: fault entry ends the command. -/
def raise (s : State) (v : Violation) : Result := .next (s.enterFault v)

/-- `IllegalCommand` raised by a command that decodes (R213, step 2, last part): its information words are the command
word, which the encoder gives back (log 13). -/
def raiseIllegal (s : State) (i : Instr) : Result := raise s (.illegalCommand (encode i).cw)

/-- Halted refusal (R212): status 0xFF and the code of the fault that halted the PME; no state changes. -/
def refuseHalted (s : State) : Result := .next (s.respond 0xFF (s.fcode.setWidth 32) [])

/-! ### Reset (R240, U15): the way out of the halted state -/

/-- The state the reset input leaves: every bank dummy, the fault registers and `HALT` cleared. -/
def State.clear (s : State) : State :=
  { s with banks := List.replicate s.cfg.nbank none, fcode := 0, finfo0 := 0, finfo1 := 0, halt := false }

/-- Reset asserted while a command is in progress: the state is that of reset whatever the command was; its response is
any value (U15; log 8). -/
def State.clearDuring (s : State) : State :=
  { s.clear with
    responses := s.responses ++ [⟨Config.freeResponseWord s.freeCount, Config.freeOutput s.freeCount⟩]
    freeCount := s.freeCount + 1 }

/-! ### The common checks, in the order of R213 -/

/-- (1) Halted refusal comes before every other check. -/
def whenRunning (s : State) (k : Result) : Result := if s.halt then refuseHalted s else k

/-- (3) `BadBank` for a bank number that is not below `NBANK`. -/
def withBankNo (s : State) (b : BankNo) (k : Option Bank → Result) : Result :=
  match s.banks[b.toNat]? with
  | none => raise s (.badBank b s.cfg.nbank)
  | some o => k o

/-- (4) `DummyContext` for a bank with `LIVE = 0`. -/
def withLive (s : State) (b : BankNo) (o : Option Bank) (k : Bank → Result) : Result :=
  match o with
  | none => raise s (.dummyContext b)
  | some bank => k bank

/-- The checks of a command on one live bank (R150). -/
def withBank (s : State) (b : BankNo) (k : Bank → Result) : Result :=
  whenRunning s (withBankNo s b fun o => withLive s b o k)

/-- The checks of a format-S command (R100): then `BadIndex` for an index the bank has no slot at. A live bank has `NCTX`
slots (10_state.md R30; log 10). -/
def withSlot (s : State) (b : BankNo) (off sub : Half) (k : Bank → Slot → Result) : Result :=
  withBank s b fun bank =>
    match bank.slots[slotIndex off sub]? with
    | none => raise s (.badIndex (slotIndex off sub) s.cfg.nctx)
    | some slot => k bank slot

/-- The checks of a statistics command: then `BadStat` for an index the bank has no word at (R162; log 10). -/
def withStat (s : State) (b : BankNo) (k : Half) (f : Bank → Word → Result) : Result :=
  withBank s b fun bank =>
    match bank.gr[k.toNat]? with
    | none => raise s (.badStat k s.cfg.ngr)
    | some v => f bank v

/-- The checks of a bulk command: then `SizeMismatch` for a vector that has not `NCTX` elements (R157). -/
def withSize (s : State) (b : BankNo) (len : Nat) (k : Bank → Result) : Result :=
  withBank s b fun bank => if len = s.cfg.nctx then k bank else raise s (.sizeMismatch s.cfg.nctx len)

/-! ### Writing -/

/-- Write `BANK[b]`, all of it. -/
def State.putBank (s : State) (b : BankNo) (o : Option Bank) : State := { s with banks := s.banks.set b.toNat o }

/-- Write the slots of a live bank whose contents are `bank`; its `GR` words stay. -/
def State.putSlots (s : State) (b : BankNo) (bank : Bank) (slots : List Slot) : State :=
  s.putBank b (some { bank with slots := slots })

/-- Write one slot of a live bank whose contents are `bank`. -/
def State.putSlot (s : State) (b : BankNo) (bank : Bank) (off sub : Half) (slot : Slot) : State :=
  s.putSlots b bank (bank.slots.set (slotIndex off sub) slot)

/-- Write one statistics word of a live bank whose contents are `bank`. -/
def State.putStat (s : State) (b : BankNo) (bank : Bank) (k : Half) (v : Word) : State :=
  s.putBank b (some { bank with gr := bank.gr.set k.toNat v })

/-! ### A command that does not decode -/

/-- `IllegalCommand` for an unknown opcode, a reserved field or a payload length (R77, R73), after the halted check. -/
def rejectCommand (c : Command) (s : State) : Result := whenRunning s (raise s (.illegalCommand c.cw))

end Sys2Proof.Machine
end

