-- ==== Sys2Proof/Machine/Probability.lean ====
section
/-! DEFINITION. The probability-model commands (41_probability_model.md). -/

namespace Sys2Proof.Machine

open Sys2Proof

/-! ### PINIT (R102, R103) -/

/-- `slope = ssel * 5 - 45`, `ssel` the high nibble of the seed. -/
def seedSlope (seed : Byte) : Int := (seed.extractLsb' 4 4).toNat * 5 - 45

/-- `offset = osel * 8 - 16`, `osel` the low nibble of the seed. -/
def seedOffset (seed : Byte) : Int := (seed.extractLsb' 0 4).toNat * 8 - 16

/-- `raw = ((slope * qpc) >> 4) + offset`, the shift rounding toward minus infinity (R103). -/
def rawStateIndex (c : Config) (qp seed : Byte) : Int := ((seedSlope seed * clippedQp c qp) >>> (4 : Nat)) + seedOffset seed

/-- The 7-bit initial-state index `clip(raw, 0, 127)`. -/
def initialStateIndex (c : Config) (qp seed : Byte) : BitVec 7 := BitVec.ofInt 7 (clip (rawStateIndex c qp seed) 0 127)

/-- `count = STATE_TO_COUNT[sidx]`. -/
def initialCount (c : Config) (qp seed : Byte) : Estimate :=
  c.stateToCount[(initialStateIndex c qp seed).toNat]'(initialStateIndex c qp seed).isLt

/-- Both fields from the count, each masked; `W` kept (R102, R105). -/
def seedSlot (c : Config) (qp seed : Byte) (s : Slot) : Slot :=
  { s with p0 := initialCount c qp seed &&& fieldMask c.prec0, p1 := initialCount c qp seed &&& fieldMask c.prec1 }

/-- PINIT (R102). -/
def execPinit (b : BankNo) (off sub : Half) (qp seed : Byte) (s : State) : Result :=
  withSlot s b off sub fun bank slot => done (s.putSlot b bank off sub (seedSlot s.cfg qp seed slot))

/-! ### PRATE (R106) -/

/-- PRATE (R106). -/
def execPrate (b : BankNo) (off sub : Half) (rate : Byte) (s : State) : Result :=
  withSlot s b off sub fun bank slot =>
    if validRate s.cfg rate then done (s.putSlot b bank off sub { slot with w := rate })
    else raise s (.badRate (slotIndex off sub) rate)

/-! ### PUPD (R110) -/

/-- `P - ((P >> r) & MASK) + (bin ? (32767 >> r) & MASK : 0)`. -/
def updateEstimate (mask : Estimate) (r : Nat) (bin : Bool) (p : Estimate) : Estimate :=
  p - ((p >>> r) &&& mask) + if bin then (32767#15 >>> r) &&& mask else 0

/-- Both fields, independently; `W` kept. -/
def updateSlot (c : Config) (pair : RatePair) (bin : Bool) (s : Slot) : Slot :=
  { s with
    p0 := updateEstimate (fieldMask c.prec0) pair.r0 bin s.p0
    p1 := updateEstimate (fieldMask c.prec1) pair.r1 bin s.p1 }

/-- PUPD (R110). -/
def execPupd (b : BankNo) (off sub : Half) (bin : Bool) (s : State) : Result :=
  withSlot s b off sub fun bank slot =>
    match ratePair s.cfg slot.w with
    | none => raise s (.badRate (slotIndex off sub) slot.w)
    | some pair => done (s.putSlot b bank off sub (updateSlot s.cfg pair bin slot))

/-! ### PGET, PSET (R113, R114) -/

/-- PGET (R113). -/
def execPget (b : BankNo) (off sub : Half) (s : State) : Result :=
  withSlot s b off sub fun _ slot => finish s (stateWord slot) []

/-- PSET (R114). -/
def execPset (b : BankNo) (off sub : Half) (word : Word) (s : State) : Result :=
  withSlot s b off sub fun bank slot => done (s.putSlot b bank off sub (storeWord s.cfg word slot))

/-! ### PQRY (R116) -/

/-- `(W << 24) | (Q8 << 16) | SUM`. -/
def queryWord (s : Slot) : Word := s.w ++ slotQ8 s ++ slotSum s

/-- PQRY (R116). -/
def execPqry (b : BankNo) (off sub : Half) (s : State) : Result :=
  withSlot s b off sub fun _ slot => finish s (queryWord slot) []

/-! ### PEST (R120) -/

/-- `BIT_COST[Q8][bin]`. -/
def binCost (c : Config) (q : Byte) (bin : Bool) : Word :=
  let row := c.bitCost[q.toNat]'q.isLt
  if bin then row.bin1 else row.bin0

/-- PEST (R120). -/
def execPest (b : BankNo) (off sub : Half) (bin : Bool) (s : State) : Result :=
  withSlot s b off sub fun _ slot => finish s (binCost s.cfg (slotQ8 slot) bin) []

end Sys2Proof.Machine
end

