-- ==== Sys2Proof/Machine/Banks.lean ====
section
/-! DEFINITION. The bank commands (43_context_banks.md). -/

namespace Sys2Proof.Machine

open Sys2Proof

/-! ### BNEW, BFREE (R151, R152) -/

/-- A zeroed slot. -/
def zeroSlot : Slot := ⟨0, 0, 0⟩

/-- A newly constructed bank: `NCTX` zeroed slots and `NGR` zero words. -/
def freshBank (c : Config) : Bank := ⟨List.replicate c.nctx zeroSlot, List.replicate c.ngr 0⟩

/-- BNEW (R151). -/
def execBnew (b : BankNo) (s : State) : Result :=
  whenRunning s (withBankNo s b fun _ => done (s.putBank b (some (freshBank s.cfg))))

/-- BFREE (R152). -/
def execBfree (b : BankNo) (s : State) : Result :=
  whenRunning s (withBankNo s b fun _ => done (s.putBank b none))

/-! ### BINIT (R153) -/

/-- The slot of one context: what PINIT with its seed and PRATE with its rate leave. -/
def romSlot (c : Config) (qp : Byte) (row : RomRow) (e : ContextEntry) : Slot :=
  { seedSlot c qp (romByte row e) zeroSlot with w := e.rate }

/-- BINIT (R153): `BadInitId` before `BadRate`; every check before the first write. -/
def execBinit (b : BankNo) (qp initId : Byte) (s : State) : Result :=
  withBank s b fun bank =>
    match seedRow initId with
    | none => raise s (.badInitId initId)
    | some row =>
      match firstBadRate s.cfg 0 (s.cfg.initRom.map ContextEntry.rate) with
      | some (i, r) => raise s (.badRate i r)
      | none => done (s.putSlots b bank (s.cfg.initRom.map (romSlot s.cfg qp row)))

/-! ### BCPY, BCPR (R155, R156) -/

/-- BCPY (R155): no liveness check; a dummy source makes the destination dummy. -/
def execBcpy (dst src : BankNo) (s : State) : Result :=
  whenRunning s (withBankNo s dst fun _ => withBankNo s src fun o =>
    done (if dst = src then s else s.putBank dst o))

/-- Slots `off .. off + size - 1` from `src`, the others from `dst`. -/
def copyRange (off size : Nat) (dst src : List Slot) : List Slot :=
  dst.take off ++ (src.drop off).take size ++ dst.drop (off + size)

/-- BCPR (R156). -/
def execBcpr (dst src : BankNo) (off size : Half) (s : State) : Result :=
  whenRunning s (withBankNo s dst fun od => withBankNo s src fun os =>
    withLive s dst od fun bd => withLive s src os fun bs =>
      if setEnd ⟨off, size⟩ ≤ s.cfg.nctx then
        done (if dst = src then s else s.putSlots dst bd (copyRange off.toNat size.toNat bd.slots bs.slots))
      else raise s (.badSet (wordOfSet ⟨off, size⟩) s.cfg.nctx))

/-! ### BLD, BSV, BWIN (R157, R158, R161) -/

/-- BLD (R157). -/
def execBld (b : BankNo) (words : List Word) (s : State) : Result :=
  withSize s b words.length fun bank => done (s.putSlots b bank (List.zipWith (storeWord s.cfg) words bank.slots))

/-- BSV (R158). -/
def execBsv (b : BankNo) (len : Half) (s : State) : Result :=
  withSize s b len.toNat fun bank => finish s 0 (bank.slots.map stateWord)

/-- Set the rate of a slot from a payload word. -/
def rateSlot (v : Word) (slot : Slot) : Slot := { slot with w := rateOfWord v }

/-- BWIN (R161): `SizeMismatch` before `BadRate`; every check before the first write. -/
def execBwin (b : BankNo) (rates : List Word) (s : State) : Result :=
  withSize s b rates.length fun bank =>
    match firstBadRate s.cfg 0 (rates.map rateOfWord) with
    | some (i, r) => raise s (.badRate i r)
    | none => done (s.putSlots b bank (List.zipWith rateSlot rates bank.slots))

/-! ### GRRD, GRWR (R162, R163) -/

/-- GRRD (R162). -/
def execGrrd (b : BankNo) (k : Half) (s : State) : Result := withStat s b k fun _ v => finish s v []

/-- GRWR (R163). -/
def execGrwr (b : BankNo) (k : Half) (value : Word) (s : State) : Result :=
  withStat s b k fun bank _ => done (s.putStat b bank k value)

end Sys2Proof.Machine
end

