-- ==== Sys2Proof/Machine/Catalog.lean ====
section
/-! DEFINITION. The definition-table and context-set commands (42_context_catalog.md). -/

namespace Sys2Proof.Machine

open Sys2Proof

/-- TGET (R135): `BadInitId` before `BadIndex`. -/
def execTget (off sub : Half) (initId : Byte) (s : State) : Result :=
  whenRunning s
    (match romRow initId with
    | none => raise s (.badInitId initId)
    | some row =>
      match s.cfg.initRom[slotIndex off sub]? with
      | none => raise s (.badIndex (slotIndex off sub) s.cfg.nctx)
      | some e => finish s ((romByte row e).setWidth 32) [])

/-- TCNT (R136). -/
def execTcnt (s : State) : Result := whenRunning s (finish s (BitVec.ofNat 32 s.cfg.nctx) [])

/-- TGRP (R137). -/
def execTgrp (g : Half) (s : State) : Result :=
  whenRunning s
    (match s.cfg.groups[g.toNat]? with
    | none => raise s (.badGroup g s.cfg.ngrp)
    | some set => finish s (wordOfSet set) [])

/-! ### SMRG (R140) -/

/-- `lo`: the least offset of a set and of those after it. -/
def mergeLow (w : Word) (ws : List Word) : Nat :=
  ws.foldl (fun lo v => min lo (setOfWord v).offset.toNat) (setOfWord w).offset.toNat

/-- `hi`: the greatest end of a set and of those after it. -/
def mergeHigh (w : Word) (ws : List Word) : Nat :=
  ws.foldl (fun hi v => max hi (setEnd (setOfWord v))) (setEnd (setOfWord w))

/-- `((hi - lo) << 16) | lo`. -/
def mergedWord (w : Word) (ws : List Word) : Word :=
  wordOfSet ⟨BitVec.ofNat 16 (mergeLow w ws), BitVec.ofNat 16 (mergeHigh w ws - mergeLow w ws)⟩

/-- SMRG (R140): the empty list is `IllegalCommand`, the first invalid set `BadSet`. -/
def execSmrg (sets : List Word) (s : State) : Result :=
  whenRunning s
    (match sets with
    | [] => raiseIllegal s (.smrg [])
    | w :: ws =>
      match (w :: ws).find? fun v => !validSet s.cfg v with
      | some bad => raise s (.badSet bad s.cfg.nctx)
      | none => finish s (mergedWord w ws) [])

end Sys2Proof.Machine
end

