-- ==== Sys2Proof/Machine/Renorm.lean ====
section
/-! DEFINITION. The renormalization lookup and shift generator (44_renorm.md). -/

namespace Sys2Proof.Machine

open Sys2Proof

/-- `class = w[7:3]` (R190). -/
def rangeClass (w : Byte) : BitVec 5 := w.extractLsb' 3 5

/-- `shift = RENORM_TABLE[class]` (R190). -/
def renormShift (c : Config) (w : Byte) : BitVec 3 := c.renormTable[(rangeClass w).toNat]'(rangeClass w).isLt

/-- `val = (w << shift) & 0x1FF` (R190): nine bits. -/
def renormValue (c : Config) (w : Byte) : BitVec 9 := w.setWidth 9 <<< (renormShift c w).toNat

/-- `(val << 16) | shift`. -/
def renormWord (c : Config) (w : Byte) : Word := 0#7 ++ renormValue c w ++ 0#13 ++ renormShift c w

/-- RNM (R190): every `w` is accepted. -/
def execRnm (w : Byte) (s : State) : Result := whenRunning s (finish s (renormWord s.cfg w) [])

end Sys2Proof.Machine
end

