-- ==== Sys2Proof/Machine/System.lean ====
section
/-! DEFINITION. The system command (45_system.md). -/

namespace Sys2Proof.Machine

open Sys2Proof

/-- RDSR (R201): the one command that runs while halted; a register number of 10 or more is refused when halted and
`IllegalCommand` otherwise. -/
def execRdsr (n : Half) (s : State) : Result :=
  match statusRegister s n with
  | some v => finish s v []
  | none => whenRunning s (raiseIllegal s (.rdsr n))

end Sys2Proof.Machine
end

