-- ==== Sys2Proof/Machine/Dispatch.lean ====
section
/-! DEFINITION. One arm per command: which meaning it has. -/

namespace Sys2Proof.Machine

open Sys2Proof

def exec (i : Instr) (s : State) : Host.Outcome State Fault Refusal :=
  match i with
  | .pinit bank off sub qp seed => Sys2Proof.Machine.execPinit bank off sub qp seed s
  | .prate bank off sub rate => Sys2Proof.Machine.execPrate bank off sub rate s
  | .pupd bank off sub bin => Sys2Proof.Machine.execPupd bank off sub bin s
  | .pget bank off sub => Sys2Proof.Machine.execPget bank off sub s
  | .pset bank off sub word => Sys2Proof.Machine.execPset bank off sub word s
  | .pest bank off sub bin => Sys2Proof.Machine.execPest bank off sub bin s
  | .pqry bank off sub => Sys2Proof.Machine.execPqry bank off sub s
  | .tget off sub initId => Sys2Proof.Machine.execTget off sub initId s
  | .tcnt => Sys2Proof.Machine.execTcnt s
  | .tgrp g => Sys2Proof.Machine.execTgrp g s
  | .smrg sets => Sys2Proof.Machine.execSmrg sets s
  | .bnew bank => Sys2Proof.Machine.execBnew bank s
  | .bfree bank => Sys2Proof.Machine.execBfree bank s
  | .binit bank qp initId => Sys2Proof.Machine.execBinit bank qp initId s
  | .bcpy dst src => Sys2Proof.Machine.execBcpy dst src s
  | .bcpr dst src off size => Sys2Proof.Machine.execBcpr dst src off size s
  | .bwin bank rates => Sys2Proof.Machine.execBwin bank rates s
  | .bld bank words => Sys2Proof.Machine.execBld bank words s
  | .bsv bank len => Sys2Proof.Machine.execBsv bank len s
  | .grrd bank k => Sys2Proof.Machine.execGrrd bank k s
  | .grwr bank k value => Sys2Proof.Machine.execGrwr bank k value s
  | .rnm w => Sys2Proof.Machine.execRnm w s
  | .rdsr n => Sys2Proof.Machine.execRdsr n s

end Sys2Proof.Machine
end

