-- ==== Sys2Proof/Machine/Step.lean ====
section
/-! DEFINITION. One step: the next thing the host does (log 1). A presented command is decoded and executed to completion
(20_memory.md R54, R58); the reset input is honoured; with nothing presented the PME waits (70_reset_and_hazards.md R241). -/

namespace Sys2Proof.Machine

open Sys2Proof

/-- Decode and execute one command, or raise `IllegalCommand`. -/
def runCommand (c : Command) (s : State) : Result :=
  match decode c with
  | .ok i => exec i s
  | .error _ => rejectCommand c s

/-- One step. -/
def step (s : State) : Host.Outcome State Fault Refusal :=
  match s.inputs with
  | [] => .next s
  | .command c :: rest => runCommand c { s with inputs := rest }
  | .reset :: rest => .next { s with inputs := rest }.clear
  | .resetDuring _ :: rest => .next { s with inputs := rest }.clearDuring

/-- The state whose next step takes the command with these bits: it is presented before everything else (log 1, log 12). -/
def State.withFetchWord (s : State) (nbits w : Nat) : State :=
  { s with inputs := .command (tableCommand nbits w) :: s.inputs }

end Sys2Proof.Machine
end

