-- ==== Sys2Proof/Safety.lean ====
section
/-! DEFINITION. The terms the statements use: what a host can observe of a state, what a command may change, the
invariants of 10_state.md section 7, and runs. A safe run is one that never enters the halted state (R251: "a run that
halts has `HALT = 1` in its end state", never a successful end). -/

namespace Sys2Proof.Machine

open Sys2Proof

/-! ### Observations -/

/-- `BANK[b]`, absent when the bank is dummy or there is no such bank. -/
def State.bankAt (s : State) (b : Nat) : Option Bank := (s.banks[b]?).join

/-- `BANK[b].LIVE`. -/
def State.liveAt (s : State) (b : Nat) : Bool := (s.bankAt b).isSome

/-- `BANK[b].SLOT[i]`. -/
def State.slotAt (s : State) (b i : Nat) : Option Slot := (s.bankAt b).bind fun bank => bank.slots[i]?

/-- `BANK[b].GR[k]`. -/
def State.statAt (s : State) (b k : Nat) : Option Word := (s.bankAt b).bind fun bank => bank.gr[k]?

/-! ### Responses and fault entry, as R74 and R214 lay them out -/

/-- `RSP(st, data, out)`: `ST` at bits [63:56], `DATA` at bits [31:0], zero between. -/
def rsp (st : Byte) (data : Word) (out : List Word) : Response :=
  ⟨BitVec.ofNat 64 (st.toNat * 2 ^ 56 + data.toNat), out⟩

/-- The state with one more response and nothing else changed. -/
def answered (s : State) (st : Byte) (data : Word) (out : List Word) : State :=
  { s with responses := s.responses ++ [rsp st data out] }

/-- The state after `raise F(i0, i1)` with `code(F) = code`: R214, nothing else changed. -/
def faulted (s : State) (code : Byte) (i0 i1 : Word) : State :=
  { s with
    fcode := code
    finfo0 := i0
    finfo1 := i1
    halt := true
    responses := s.responses ++ [rsp code i0 []] }

/-! ### Frames -/

/-- `FCODE`, `FINFO0`, `FINFO1` and `HALT` are unchanged. -/
def KeepsStatus (s t : State) : Prop :=
  t.fcode = s.fcode ∧ t.finfo0 = s.finfo0 ∧ t.finfo1 = s.finfo1 ∧ t.halt = s.halt

/-- The configuration and the model's own input fields are unchanged. -/
def KeepsOutside (s t : State) : Prop := t.cfg = s.cfg ∧ t.inputs = s.inputs ∧ t.freeCount = s.freeCount

/-- The command completed: one response `RSP(OK, 0)`; of everything that is not a bank nothing else changed, and no bank
but `b` changed. -/
def CompletesOnBank (s t : State) (b : Nat) : Prop :=
  t.responses = s.responses ++ [rsp 0 0 []] ∧ KeepsStatus s t ∧ KeepsOutside s t ∧ t.banks.length = s.banks.length ∧
    ∀ b', b' ≠ b → t.bankAt b' = s.bankAt b'

/-- The command completed and wrote one slot: every other slot, every statistics word and every `LIVE` bit is unchanged. -/
def CompletesOnSlot (s t : State) (b i : Nat) (slot : Slot) : Prop :=
  t.slotAt b i = some slot ∧ CompletesOnBank s t b ∧ t.liveAt b = s.liveAt b ∧
    (∀ i', i' ≠ i → t.slotAt b i' = s.slotAt b i') ∧ ∀ k, t.statAt b k = s.statAt b k

/-! ### Operand classes -/

/-- The address of a format-S command (R100). -/
def slotAddress : Instr → Option (BankNo × Half × Half)
  | .pinit b off sub _ _ => some (b, off, sub)
  | .prate b off sub _ => some (b, off, sub)
  | .pupd b off sub _ => some (b, off, sub)
  | .pget b off sub => some (b, off, sub)
  | .pset b off sub _ => some (b, off, sub)
  | .pest b off sub _ => some (b, off, sub)
  | .pqry b off sub => some (b, off, sub)
  | _ => none

/-- The field `BD` of a format-K command (R150). -/
def bankField : Instr → Option BankNo
  | .bnew b => some b
  | .bfree b => some b
  | .binit b _ _ => some b
  | .bcpy dst _ => some dst
  | .bcpr dst _ _ _ => some dst
  | .bwin b _ => some b
  | .bld b _ => some b
  | .bsv b _ => some b
  | .grrd b _ => some b
  | .grwr b _ _ => some b
  | _ => none

/-- The field `BS` of the two copies. -/
def sourceField : Instr → Option BankNo
  | .bcpy _ src => some src
  | .bcpr _ src _ _ => some src
  | _ => none

/-- The format-K commands that need a live bank: all but `BNEW`, `BFREE` and `BCPY` (R150). -/
def needsLive : Instr → Bool
  | .binit _ _ _ => true
  | .bcpr _ _ _ _ => true
  | .bwin _ _ => true
  | .bld _ _ => true
  | .bsv _ _ => true
  | .grrd _ _ => true
  | .grwr _ _ _ => true
  | _ => false

/-- The bank a command writes; none for the commands that change no state (20_memory.md R50, R55). -/
def writtenBank : Instr → Option BankNo
  | .pinit b _ _ _ _ => some b
  | .prate b _ _ _ => some b
  | .pupd b _ _ _ => some b
  | .pset b _ _ _ => some b
  | .bnew b => some b
  | .bfree b => some b
  | .binit b _ _ => some b
  | .bcpy dst _ => some dst
  | .bcpr dst _ _ _ => some dst
  | .bwin b _ => some b
  | .bld b _ => some b
  | .grwr b _ _ => some b
  | .pget _ _ _ => none
  | .pest _ _ _ _ => none
  | .pqry _ _ _ => none
  | .tget _ _ _ => none
  | .tcnt => none
  | .tgrp _ => none
  | .smrg _ => none
  | .bsv _ _ => none
  | .grrd _ _ => none
  | .rnm _ => none
  | .rdsr _ => none

/-- The command puts raw state into slot `(b, j)`: `BNEW` and `BLD` of the bank, `PSET` of the slot (R36). -/
def storesRawAt (i : Instr) (b j : Nat) : Bool :=
  match i with
  | .pset n off sub _ => n.toNat == b && off.toNat + sub.toNat == j
  | .bnew n => n.toNat == b
  | .bld n _ => n.toNat == b
  | _ => false

/-- The bank from which the command copies a slot into `(b, j)`, if it does (R155, R156). -/
def copiesFrom (i : Instr) (b j : Nat) : Option BankNo :=
  match i with
  | .bcpy dst src => if dst.toNat = b then some src else none
  | .bcpr dst src off size =>
    if dst.toNat = b ∧ off.toNat ≤ j ∧ j < off.toNat + size.toNat then some src else none
  | _ => none

/-- The command seeds slot `(b, j)`: `PINIT` of the slot, `BINIT` of the bank (R36). -/
def seedsAt (i : Instr) (b j : Nat) : Bool :=
  match i with
  | .pinit n off sub _ _ => n.toNat == b && off.toNat + sub.toNat == j
  | .binit n _ _ => n.toNat == b
  | _ => false

/-! ### Invariants (10_state.md section 7, R30, R33) -/

/-- The arrays have the sizes of R29 and R30: `NBANK` banks, and `NCTX` slots and `NGR` words in each live one. -/
structure State.Shape (s : State) : Prop where
  bank_count : s.banks.length = s.cfg.nbank
  slot_count : ∀ bank, some bank ∈ s.banks → bank.slots.length = s.cfg.nctx
  stat_count : ∀ bank, some bank ∈ s.banks → bank.gr.length = s.cfg.ngr

/-- Both fields of a slot are zero outside their masks. -/
def Slot.Masked (c : Config) (slot : Slot) : Prop :=
  slot.p0 &&& ~~~fieldMask c.prec0 = 0 ∧ slot.p1 &&& ~~~fieldMask c.prec1 = 0

/-- The mask invariant (R35). -/
def State.MaskInvariant (s : State) : Prop := ∀ b i slot, s.slotAt b i = some slot → slot.Masked s.cfg

/-- The rate invariant (R37). -/
def State.RateInvariant (s : State) : Prop :=
  ∀ b i slot, s.slotAt b i = some slot → slot.w = 0 ∨ validRate s.cfg slot.w = true

/-- `HALT = 1` exactly when `FCODE != 0` (R33). -/
def State.HaltInvariant (s : State) : Prop := s.halt = true ↔ s.fcode ≠ 0

/-- Both estimates strictly between 0 and `PROB_MAX` (R36). -/
def Slot.Interior (slot : Slot) : Prop :=
  0 < slot.p0.toNat ∧ slot.p0.toNat < 32767 ∧ 0 < slot.p1.toNat ∧ slot.p1.toNat < 32767

/-- Slot `(b, i)`, where there is one, is strictly interior (R36). -/
def State.InteriorAt (s : State) (b i : Nat) : Prop := ∀ slot, s.slotAt b i = some slot → slot.Interior

/-! ### Runs (R251) -/

/-- Execute instructions in order. -/
def execAll : List Instr → State → Result
  | [], s => .next s
  | i :: is, s =>
    match exec i s with
    | .next t => execAll is t
    | .fault r => .fault r
    | .refused r => .refused r

/-- A step that ends in a state that is not halted. -/
def StepsSafely (s t : State) : Prop := step s = .next t ∧ t.halt = false

end Sys2Proof.Machine
end

