-- ==== Sys2Proof/Certificates/Slice0/Obligations.lean ====
section
/-! DEFINITION. The statements for the provers. Arithmetic is written out here on natural numbers and integers, from the
rules, and not by the meanings' own functions, but where a statement is about such a function. Slots, statistics words and
banks are read through the observations of Safety.lean. Every statement holds for every configuration; where a rule needs
a well-formed one, `WF` is a premise. -/

open Sys2Proof Sys2Proof.Machine

/-! ### Spec vocabulary -/

/-- One row of spec/opcode_table.json: `match`, `mask` and the payload length as a function of field `A`. -/
structure Sys2Proof.TableRow where
  pattern : LongWord
  mask : LongWord
  payload : Nat → Nat

/-- The 23 rows of spec/opcode_table.json, in its order. -/
def Sys2Proof.specTable : List TableRow :=
  [⟨0x1000000000000000, 0xFF0F000000000000, fun _ => 0⟩,
   ⟨0x1100000000000000, 0xFF0F00000000FF00, fun _ => 0⟩,
   ⟨0x1200000000000000, 0xFF0F00000000FFFE, fun _ => 0⟩,
   ⟨0x1300000000000000, 0xFF0F00000000FFFF, fun _ => 0⟩,
   ⟨0x1400000000000000, 0xFF0F00000000FFFF, fun _ => 1⟩,
   ⟨0x1500000000000000, 0xFF0F00000000FFFE, fun _ => 0⟩,
   ⟨0x1600000000000000, 0xFF0F00000000FFFF, fun _ => 0⟩] ++
  [⟨0x2000000000000000, 0xFFFF00000000FF00, fun _ => 0⟩,
   ⟨0x2100000000000000, 0xFFFFFFFFFFFFFFFF, fun _ => 0⟩,
   ⟨0x2200000000000000, 0xFFFF0000FFFFFFFF, fun _ => 0⟩,
   ⟨0x2300000000000000, 0xFFFF0000FFFFFFFF, fun a => a⟩] ++
  [⟨0x3000000000000000, 0xFF0FFFFFFFFFFFFF, fun _ => 0⟩,
   ⟨0x3100000000000000, 0xFF0FFFFFFFFFFFFF, fun _ => 0⟩,
   ⟨0x3200000000000000, 0xFF0FFFFFFFFF0000, fun _ => 0⟩,
   ⟨0x3300000000000000, 0xFF00FFFFFFFFFFFF, fun _ => 0⟩,
   ⟨0x3400000000000000, 0xFF0000000000FFFF, fun _ => 0⟩,
   ⟨0x3500000000000000, 0xFF0F0000FFFFFFFF, fun a => a⟩,
   ⟨0x3600000000000000, 0xFF0F0000FFFFFFFF, fun a => a⟩,
   ⟨0x3700000000000000, 0xFF0F0000FFFFFFFF, fun _ => 0⟩,
   ⟨0x3800000000000000, 0xFF0F0000FFFFFFFF, fun _ => 0⟩,
   ⟨0x3900000000000000, 0xFF0F0000FFFFFFFF, fun _ => 1⟩] ++
  [⟨0x4000000000000000, 0xFFFFFFFFFFFFFF00, fun _ => 0⟩,
   ⟨0x7000000000000000, 0xFFFF0000FFFFFFFF, fun _ => 0⟩]

/-- A row of the table takes the command: the fixed bits match and the payload has the row's length, `A` being bits
[47:32] of the command word. -/
def Sys2Proof.inTable (c : Command) : Prop :=
  ∃ row ∈ specTable, c.cw &&& row.mask = row.pattern ∧ c.pl.length = row.payload (c.cw.toNat / 2 ^ 32 % 2 ^ 16)

/-- The arithmetic of R101 and R102 on integers: `count` is what a seed gives at a QP. `/` rounds toward minus infinity. -/
def Sys2Proof.SeedCount (c : Config) (qp seed : Byte) (count : Estimate) : Prop :=
  let qpc : Int := max 0 (min qp.toInt c.qpMax)
  let slope : Int := (seed.toNat / 16 : Nat) * 5 - 45
  let offset : Int := (seed.toNat % 16 : Nat) * 8 - 16
  c.stateToCount[(max 0 (min 127 (slope * qpc / 16 + offset))).toNat]? = some count

/-- `MASK0` and `MASK1` as R6 derives them from the precisions. -/
def Sys2Proof.maskOf (prec : Nat) : Nat := (2 ^ prec - 1) * 2 ^ (15 - prec)

/-- `v & MASK`, as a 15-bit field. -/
def Sys2Proof.masked (v prec : Nat) : Estimate := BitVec.ofNat 15 (v &&& maskOf prec)

/-- R110 on one field, on natural numbers: `P - d + a`. -/
def Sys2Proof.updated (p prec r : Nat) (bin : Bool) : Nat :=
  p - ((p >>> r) &&& maskOf prec) + if bin then (32767 >>> r) &&& maskOf prec else 0

/-! ### Encoding and decoding -/

/-- The worked encodings of R80 (marked derived there), each decoded; the last two are `IllegalCommand`. -/
def Obligations.WorkedEncodingsDecode : Prop :=
  decode ⟨0x10000000000020C5, []⟩ = .ok (.pinit 0 0 0 32 197) ∧
  decode ⟨0x1210000000020001, []⟩ = .ok (.pupd 1 0 2 true) ∧
  decode ⟨0x3200000000002000, []⟩ = .ok (.binit 0 32 0) ∧
  decode ⟨0x322000000000FD01, []⟩ = .ok (.binit 2 0xFD 1) ∧ (0xFD : Byte).toInt = -3 ∧
  decode ⟨0x3310000000000000, []⟩ = .ok (.bcpy 1 0) ∧
  decode ⟨0x3420000100020000, []⟩ = .ok (.bcpr 2 0 1 2) ∧
  (∀ a b c : Word, decode ⟨0x3620000300000000, [a, b, c]⟩ = .ok (.bld 2 [a, b, c])) ∧
  decode ⟨0x4000000000000025, []⟩ = .ok (.rnm 37) ∧
  decode ⟨0x7000000600000000, []⟩ = .ok (.rdsr 6) ∧
  (∀ (pl : List Word) (s : State), s.halt = false →
    step { s with inputs := [.command ⟨0x1001000000000000, pl⟩] } =
      .next (faulted { s with inputs := [] } 1 0x10010000 0)) ∧
  (∀ (pl : List Word) (s : State), s.halt = false →
    step { s with inputs := [.command ⟨0x0000000000000000, pl⟩] } = .next (faulted { s with inputs := [] } 1 0 0))

/-- Every well-formed instruction survives encoding and decoding, with every operand at every value its field admits. -/
def Obligations.DecodeInvertsEncode : Prop := ∀ i : Instr, i.wellFormed = true → decode (encode i) = .ok i

/-- Whatever decodes is the encoding of what it decodes to: no bit of a command is dropped, and no two commands mean the
same instruction. -/
def Obligations.EncodeInvertsDecode : Prop :=
  ∀ (c : Command) (i : Instr), decode c = .ok i → encode i = c ∧ i.wellFormed = true

/-- A command decodes exactly when a row of the opcode table takes it (R76, R77, R73). -/
def Obligations.DecodesExactlyTheTable : Prop := ∀ c : Command, (∃ i, decode c = .ok i) ↔ inTable c

/-! ### The step -/

/-- A presented command that decodes to `i` is executed as `i`, on the state from which it has been taken. -/
def Obligations.StepExecutesDecodedCommand : Prop :=
  ∀ (s : State) (c : Command) (rest : List Input) (i : Instr),
    s.inputs = .command c :: rest → decode c = .ok i → step s = exec i { s with inputs := rest }

/-- R77: with the PME not halted, a command that a row of the opcode table takes is executed as what it decodes to, and every
other (opcode not listed, a reserved field not zero, or a payload of another length) raises
`IllegalCommand(CW[63:32], CW[31:0])`. -/
def Obligations.UnlistedCommandIsIllegal : Prop :=
  ∀ (s : State) (c : Command) (rest : List Input),
    s.halt = false → s.inputs = .command c :: rest →
    (inTable c → ∃ i, decode c = .ok i ∧ step s = exec i { s with inputs := rest }) ∧
    (¬inTable c → step s = .next (faulted { s with inputs := rest } 1
      (BitVec.ofNat 32 (c.cw.toNat / 2 ^ 32)) (BitVec.ofNat 32 (c.cw.toNat % 2 ^ 32))))

/-- R212: while halted, every command that is not a well-formed `RDSR` with `n < 10` is answered `RSP(0xFF, zext(FCODE))`
and changes no state. -/
def Obligations.HaltedCommandRefused : Prop :=
  ∀ (s : State) (c : Command) (rest : List Input),
    s.halt = true → s.inputs = .command c :: rest →
    (∀ n : Nat, n < 10 → c ≠ ⟨BitVec.ofNat 64 (0x70 * 2 ^ 56 + n * 2 ^ 32), []⟩) →
      step s = .next (answered { s with inputs := rest } 0xFF (BitVec.ofNat 32 s.fcode.toNat) [])

/-- `RDSR n`, `n < 10`, answers the register of R32 whether halted or not, and changes nothing. -/
def Obligations.RdsrReadsRegisters : Prop :=
  ∀ (s : State) (n : Half), s.cfg.WF → s.Shape → n.toNat < 10 →
    ∃ v : Word, exec (.rdsr n) s = .next (answered s 0 v []) ∧
      (n = 0 → v.toNat = s.cfg.nctx) ∧ (n = 1 → v.toNat = s.cfg.nbank) ∧ (n = 2 → v.toNat = s.cfg.ngrp) ∧
      (n = 3 → v.toNat = s.cfg.ngr) ∧ (n = 4 → v.toNat = s.cfg.qpMax) ∧
      (n = 5 → ∀ b, v.getLsbD b = s.liveAt b) ∧
      (n = 6 → v.toNat = s.fcode.toNat + 2 ^ 8 * s.halt.toNat) ∧ (n = 7 → v = s.finfo0) ∧ (n = 8 → v = s.finfo1) ∧
      (n = 9 → v.toNat = s.cfg.prec0 + 2 ^ 4 * s.cfg.prec1 + 2 ^ 8 * s.cfg.costScaleBits)

/-- `RDSR n` with `n >= 10`: refused when halted, else `IllegalCommand` with the command word (R201). -/
def Obligations.RdsrBadNumberStops : Prop :=
  ∀ (s : State) (n : Half), 10 ≤ n.toNat →
    (s.halt = true → exec (.rdsr n) s = .next (answered s 0xFF (BitVec.ofNat 32 s.fcode.toNat) [])) ∧
    (s.halt = false → exec (.rdsr n) s = .next (faulted s 1 (BitVec.ofNat 32 (0x70000000 + n.toNat)) 0))

/-- The model's own port, no rule of the spec: with nothing presented a step changes nothing (log 1); reset between commands
answers nothing, and reset during a command gives that command one response, of any value (log 8, U15). -/
def Obligations.PortOutsideCommands : Prop :=
  ∀ (s : State) (rest : List Input) (c : Command),
    (s.inputs = [] → step s = .next s) ∧
    (s.inputs = .reset :: rest → ∃ t, step s = .next t ∧ t.responses = s.responses) ∧
    (s.inputs = .resetDuring c :: rest → ∃ t r, step s = .next t ∧ t.responses = s.responses ++ [r])

/-- R240: the reset input, asserted between commands or while a command is in progress, and in every state (halted too),
makes every bank dummy and clears the fault registers and `HALT`; the next input meets exactly that state. No other step
leaves the halted state. -/
def Obligations.ResetInputClears : Prop :=
  (∀ (s : State) (rest : List Input) (c : Command),
    s.inputs = .reset :: rest ∨ s.inputs = .resetDuring c :: rest →
    ∃ t, step s = .next t ∧ t.banks.length = s.cfg.nbank ∧ (∀ b, t.liveAt b = false) ∧
      (∀ b i, t.slotAt b i = none) ∧ (∀ b k, t.statAt b k = none) ∧
      t.fcode = 0 ∧ t.finfo0 = 0 ∧ t.finfo1 = 0 ∧ t.halt = false ∧ t.cfg = s.cfg ∧ t.inputs = rest) ∧
  (∀ s t : State, s.halt = true → step s = .next t → t.halt = false →
    ∃ rest c, s.inputs = .reset :: rest ∨ s.inputs = .resetDuring c :: rest)

/-- Every step answers a next state: no command, no payload, no state stops the machine (R77 "the decode of every 64-bit
word with every payload length is defined", R214). -/
def Obligations.EveryStepAnswers : Prop := ∀ s : State, ∃ t, step s = .next t

/-- R74: exactly one response follows each command; bits [55:32] are zero; `ST` is 0, a fault code 0x01 to 0x0A, or 0xFF;
on a fault `DATA` is the value written to `FINFO0`, on a refusal `zext(FCODE)`; `DATA` is 0 where the command's rule names no
result (the writing commands and `BSV`); the output payload is empty but for a successful `BSV`. -/
def Obligations.OneResponsePerCommand : Prop :=
  ∀ (s t : State) (c : Command) (rest : List Input),
    s.inputs = .command c :: rest → step s = .next t →
    ∃ (st : Byte) (data : Word) (out : List Word), t.responses = s.responses ++ [rsp st data out] ∧
      (st = 0 ∧ t.fcode = s.fcode ∧ t.halt = s.halt ∨
       1 ≤ st.toNat ∧ st.toNat ≤ 10 ∧ t.fcode = st ∧ t.finfo0 = data ∧ t.halt = true ∧ s.halt = false ∨
       st = 0xFF ∧ s.halt = true ∧ data = BitVec.ofNat 32 s.fcode.toNat) ∧
      (∀ i, st = 0 → decode c = .ok i → (writtenBank i ≠ none ∨ ∃ b len, i = .bsv b len) → data = 0) ∧
      (out ≠ [] → st = 0 ∧ ∃ b len, decode c = .ok (.bsv b len))

/-! ### Invariants and whole-machine rules -/

/-- The sizes of R29 and R30 are kept by every step. -/
def Obligations.StepKeepsShape : Prop := ∀ s t : State, s.Shape → step s = .next t → t.Shape

/-- The mask invariant of R35 (which the spec marks derived) is kept by every step. -/
def Obligations.StepKeepsMasks : Prop := ∀ s t : State, s.MaskInvariant → step s = .next t → t.MaskInvariant

/-- The rate invariant of R37 (which the spec marks derived) is kept by every step. -/
def Obligations.StepKeepsRates : Prop := ∀ s t : State, s.RateInvariant → step s = .next t → t.RateInvariant

/-- `HALT = 1` exactly when `FCODE != 0` (R33, marked derived there) is kept by every step. -/
def Obligations.StepKeepsHaltIffCode : Prop := ∀ s t : State, s.HaltInvariant → step s = .next t → t.HaltInvariant

/-- After reset every bank is dummy, the fault registers are 0 and the PME is not halted (R39), and every invariant holds. The
configuration in that state is the model's choice (log 4). -/
def Obligations.ResetStateMeetsInvariants : Prop :=
  (∀ b, State.reset.liveAt b = false) ∧ (∀ b i, State.reset.slotAt b i = none) ∧ (∀ b k, State.reset.statAt b k = none) ∧
  State.reset.fcode = 0 ∧ State.reset.finfo0 = 0 ∧ State.reset.finfo1 = 0 ∧ State.reset.halt = false ∧
  State.reset.Shape ∧ State.reset.MaskInvariant ∧ State.reset.RateInvariant ∧ State.reset.HaltInvariant

/-- The fixture `CFG_EX1` of R7 is well-formed: table T1 meets R104 (a) to (d), the default `RATE_PAIR` R107 (e), the
printed group R131 and R132, and R121 holds whatever its free cost table is (log 5). The defaults the spec takes from general
knowledge are those of log 6. -/
def Obligations.FixtureIsWellFormed : Prop := example1.WF

/-- No step, reset included, changes the configuration (R6, R241). -/
def Obligations.StepKeepsConfiguration : Prop := ∀ s t : State, step s = .next t → t.cfg = s.cfg

/-- R215: when a command faults, the state is the state before it plus `FCODE`, `FINFO0`, `FINFO1`, `HALT` (and the
response); the code is one of the ten. -/
def Obligations.FaultsArePrecise : Prop :=
  ∀ (s t : State) (c : Command) (rest : List Input),
    s.inputs = .command c :: rest → s.halt = false → step s = .next t → t.halt = true →
      ∃ (code : Byte) (i0 i1 : Word), 1 ≤ code.toNat ∧ code.toNat ≤ 10 ∧
        t = faulted { s with inputs := rest } code i0 i1

/-- R216: once halted, no command clears `HALT` or `FCODE` or overwrites the diagnostic, and no command changes a bank. -/
def Obligations.HaltLastsUntilReset : Prop :=
  ∀ (s t : State) (c : Command) (rest : List Input),
    s.halt = true → s.inputs = .command c :: rest → step s = .next t →
      t.halt = true ∧ t.fcode = s.fcode ∧ t.finfo0 = s.finfo0 ∧ t.finfo1 = s.finfo1 ∧ t.banks = s.banks

/-- R31: a command that writes `BANK[d]` changes nothing of any other bank; a command that writes no bank changes none. -/
def Obligations.BanksAreIndependent : Prop :=
  ∀ (i : Instr) (s t : State), exec i s = .next t →
    ∀ b : Nat, (∀ d, writtenBank i = some d → d.toNat ≠ b) → t.banks[b]? = s.banks[b]?

/-- The commands that R55 lists as reads change no state when they do not fault: one response is added and nothing else, of
status 0, or 0xFF from a halted state; and repeating the command gives the same response again. -/
def Obligations.ReadsChangeNothing : Prop :=
  ∀ (i : Instr) (s t : State), writtenBank i = none → exec i s = .next t → t.halt = s.halt →
    ∃ (st : Byte) (data : Word) (out : List Word), t = answered s st data out ∧
      (st = 0 ∨ st = 0xFF ∧ s.halt = true) ∧ exec i t = .next (answered t st data out)

/-- The writing commands that R55 lists (all but `PUPD`) are idempotent: executing one again leaves the state of the first
execution with one more response of status 0. -/
def Obligations.WritesAreIdempotent : Prop :=
  ∀ (i : Instr) (s t u : State), (∀ b off sub bin, i ≠ .pupd b off sub bin) → s.halt = false → s.Shape →
    exec i s = .next t → t.halt = false → exec i t = .next u →
      ∃ (data : Word) (out : List Word), u = answered t 0 data out

/-- Two `PUPD`s of different slots commute (R247 "the order of commands addressing different slots does not matter"). -/
def Obligations.UpdatesOfDifferentSlotsCommute : Prop :=
  ∀ (s : State) (b c : BankNo) (off sub off' sub' : Half) (x y : Bool) (p q : Slot),
    s.halt = false → s.slotAt b.toNat (off.toNat + sub.toNat) = some p →
    s.slotAt c.toNat (off'.toNat + sub'.toNat) = some q →
    (b ≠ c ∨ off.toNat + sub.toNat ≠ off'.toNat + sub'.toNat) →
    validRate s.cfg p.w = true → validRate s.cfg q.w = true →
    ∃ t u, execAll [.pupd b off sub x, .pupd c off' sub' y] s = .next t ∧
      execAll [.pupd c off' sub' y, .pupd b off sub x] s = .next u ∧ t = u ∧ t.halt = false

/-! ### The common checks -/

/-- R100 for every format-S command: halted refusal; not halted, first `BadBank(b, NBANK)`, then `DummyContext(b, 0)`, then
`BadIndex(i, NCTX)` with `i = off + sub` unwrapped. No format-S command touches any slot but the one it addresses. -/
def Obligations.SlotCommandsCheckInOrder : Prop :=
  ∀ (i : Instr) (s : State) (b : BankNo) (off sub : Half),
    slotAddress i = some (b, off, sub) → s.Shape →
    (s.halt = true → exec i s = .next (answered s 0xFF (BitVec.ofNat 32 s.fcode.toNat) [])) ∧
    (s.halt = false → s.cfg.nbank ≤ b.toNat →
      exec i s = .next (faulted s 2 (BitVec.ofNat 32 b.toNat) (BitVec.ofNat 32 s.cfg.nbank))) ∧
    (s.halt = false → b.toNat < s.cfg.nbank → s.liveAt b.toNat = false →
      exec i s = .next (faulted s 3 (BitVec.ofNat 32 b.toNat) 0)) ∧
    (s.halt = false → s.liveAt b.toNat = true → s.cfg.nctx ≤ off.toNat + sub.toNat →
      exec i s = .next (faulted s 6 (BitVec.ofNat 32 (off.toNat + sub.toNat)) (BitVec.ofNat 32 s.cfg.nctx))) ∧
    (∀ t, exec i s = .next t → ∀ n j, n ≠ b.toNat ∨ j ≠ off.toNat + sub.toNat → t.slotAt n j = s.slotAt n j)

/-- R150 for every format-K command: halted refusal; not halted, `BadBank` for `BD`, then for `BS` (the copies), then
`DummyContext` for `BD` (all but `BNEW`, `BFREE`, `BCPY`), then for `BS` (`BCPR`). -/
def Obligations.BankCommandsCheckInOrder : Prop :=
  ∀ (i : Instr) (s : State) (b : BankNo), bankField i = some b → s.Shape →
    (s.halt = true → exec i s = .next (answered s 0xFF (BitVec.ofNat 32 s.fcode.toNat) [])) ∧
    (s.halt = false → s.cfg.nbank ≤ b.toNat →
      exec i s = .next (faulted s 2 (BitVec.ofNat 32 b.toNat) (BitVec.ofNat 32 s.cfg.nbank))) ∧
    (s.halt = false → b.toNat < s.cfg.nbank → ∀ c, sourceField i = some c → s.cfg.nbank ≤ c.toNat →
      exec i s = .next (faulted s 2 (BitVec.ofNat 32 c.toNat) (BitVec.ofNat 32 s.cfg.nbank))) ∧
    (s.halt = false → b.toNat < s.cfg.nbank → (∀ c, sourceField i = some c → c.toNat < s.cfg.nbank) →
      needsLive i = true → s.liveAt b.toNat = false → exec i s = .next (faulted s 3 (BitVec.ofNat 32 b.toNat) 0)) ∧
    (s.halt = false → s.liveAt b.toNat = true → needsLive i = true → ∀ c, sourceField i = some c →
      c.toNat < s.cfg.nbank → s.liveAt c.toNat = false → exec i s = .next (faulted s 3 (BitVec.ofNat 32 c.toNat) 0))

/-! ### Probability-model commands, the common checks passed -/

/-- PINIT (R102): both fields from the count of the seed at the clipped QP, each masked; `W` kept. -/
def Obligations.PinitSeedsSlot : Prop :=
  ∀ (s : State) (b : BankNo) (off sub : Half) (qp seed : Byte) (p : Slot),
    s.halt = false → s.slotAt b.toNat (off.toNat + sub.toNat) = some p →
    ∃ (t : State) (count : Estimate), exec (.pinit b off sub qp seed) s = .next t ∧ SeedCount s.cfg qp seed count ∧
      CompletesOnSlot s t b.toNat (off.toNat + sub.toNat)
        ⟨masked count.toNat s.cfg.prec0, masked count.toNat s.cfg.prec1, p.w⟩

/-- PRATE (R106): `W` is the byte if it has a rate pair, else `BadRate(i, rate)`; `P0` and `P1` kept. -/
def Obligations.PrateSetsRate : Prop :=
  ∀ (s : State) (b : BankNo) (off sub : Half) (rate : Byte) (p : Slot),
    s.halt = false → s.slotAt b.toNat (off.toNat + sub.toNat) = some p →
    (s.cfg.ratePairs[rate.toNat]? = some none → exec (.prate b off sub rate) s =
      .next (faulted s 7 (BitVec.ofNat 32 (off.toNat + sub.toNat)) (BitVec.ofNat 32 rate.toNat))) ∧
    (∀ pair, s.cfg.ratePairs[rate.toNat]? = some (some pair) →
      ∃ t, exec (.prate b off sub rate) s = .next t ∧
        CompletesOnSlot s t b.toNat (off.toNat + sub.toNat) { p with w := rate })

/-- PUPD (R110, whose formula the spec takes from general knowledge and makes normative, D13, log 7): each field of a slot
that meets the mask invariant R35 becomes `P - d + a` without wrap; `W` kept; `BadRate(i, W)` when `W` has no pair. -/
def Obligations.PupdMovesEstimates : Prop :=
  ∀ (s : State) (b : BankNo) (off sub : Half) (bin : Bool) (p : Slot),
    s.halt = false → s.slotAt b.toNat (off.toNat + sub.toNat) = some p →
    (s.cfg.ratePairs[p.w.toNat]? = some none → exec (.pupd b off sub bin) s =
      .next (faulted s 7 (BitVec.ofNat 32 (off.toNat + sub.toNat)) (BitVec.ofNat 32 p.w.toNat))) ∧
    (∀ pair, s.cfg.ratePairs[p.w.toNat]? = some (some pair) → p.Masked s.cfg →
      ∃ (t : State) (q : Slot), exec (.pupd b off sub bin) s = .next t ∧
        CompletesOnSlot s t b.toNat (off.toNat + sub.toNat) q ∧ q.w = p.w ∧
        q.p0.toNat = updated p.p0.toNat s.cfg.prec0 pair.r0 bin ∧
        q.p1.toNat = updated p.p1.toNat s.cfg.prec1 pair.r1 bin)

/-- PGET (R113): `DATA = (P1 << 16) | P0`. -/
def Obligations.PgetReturnsStateWord : Prop :=
  ∀ (s : State) (b : BankNo) (off sub : Half) (p : Slot),
    s.halt = false → s.slotAt b.toNat (off.toNat + sub.toNat) = some p →
    exec (.pget b off sub) s = .next (answered s 0 (BitVec.ofNat 32 (p.p1.toNat * 2 ^ 16 + p.p0.toNat)) [])

/-- PSET (R114, R25): `P0` from bits [14:0] and `P1` from bits [30:16], each masked; `W` kept. -/
def Obligations.PsetStoresMaskedWord : Prop :=
  ∀ (s : State) (b : BankNo) (off sub : Half) (word : Word) (p : Slot),
    s.halt = false → s.slotAt b.toNat (off.toNat + sub.toNat) = some p →
    ∃ t, exec (.pset b off sub word) s = .next t ∧
      CompletesOnSlot s t b.toNat (off.toNat + sub.toNat)
        ⟨masked (word.toNat % 2 ^ 15) s.cfg.prec0, masked (word.toNat / 2 ^ 16 % 2 ^ 15) s.cfg.prec1, p.w⟩

/-- PQRY (R116): `DATA = (W << 24) | (Q8 << 16) | SUM`, `SUM = P0 + P1`, `Q8 = SUM >> 8`. -/
def Obligations.PqryReturnsCombinedEstimate : Prop :=
  ∀ (s : State) (b : BankNo) (off sub : Half) (p : Slot),
    s.halt = false → s.slotAt b.toNat (off.toNat + sub.toNat) = some p →
    exec (.pqry b off sub) s = .next (answered s 0 (BitVec.ofNat 32
      (p.w.toNat * 2 ^ 24 + (p.p0.toNat + p.p1.toNat) / 2 ^ 8 * 2 ^ 16 + (p.p0.toNat + p.p1.toNat))) [])

/-- PEST (R120): `DATA = BIT_COST[(P0 + P1) >> 8][bin]`; the slot is not updated. -/
def Obligations.PestReturnsBinCost : Prop :=
  ∀ (s : State) (b : BankNo) (off sub : Half) (bin : Bool) (p : Slot),
    s.halt = false → s.slotAt b.toNat (off.toNat + sub.toNat) = some p →
    ∃ row, s.cfg.bitCost[(p.p0.toNat + p.p1.toNat) / 2 ^ 8]? = some row ∧
      exec (.pest b off sub bin) s = .next (answered s 0 (if bin then row.bin1 else row.bin0) [])

/-! ### Definition-table and context-set commands -/

/-- TGET (R135): `BadInitId` for `initId >= 4`, then `BadIndex`, then the byte of the row the id selects (R138). -/
def Obligations.TgetReadsRom : Prop :=
  ∀ (s : State) (off sub : Half) (initId : Byte), s.halt = false →
    (4 ≤ initId.toNat → exec (.tget off sub initId) s = .next (faulted s 5 (BitVec.ofNat 32 initId.toNat) 0)) ∧
    (initId.toNat < 4 → s.cfg.nctx ≤ off.toNat + sub.toNat → exec (.tget off sub initId) s =
      .next (faulted s 6 (BitVec.ofNat 32 (off.toNat + sub.toNat)) (BitVec.ofNat 32 s.cfg.nctx))) ∧
    (∀ e v, s.cfg.initRom[off.toNat + sub.toNat]? = some e →
      [e.seedI, e.seedP, e.seedB, e.rate][initId.toNat]? = some v →
      exec (.tget off sub initId) s = .next (answered s 0 (BitVec.ofNat 32 v.toNat) []))

/-- TCNT (R136): `DATA = NCTX`. -/
def Obligations.TcntReturnsContextCount : Prop :=
  ∀ s : State, s.halt = false → exec .tcnt s = .next (answered s 0 (BitVec.ofNat 32 s.cfg.nctx) [])

/-- TGRP (R137): `DATA = (size << 16) | offset` of group `g`, or `BadGroup(g, NGRP)`. -/
def Obligations.TgrpReturnsHandle : Prop :=
  ∀ (s : State) (g : Half), s.halt = false →
    (s.cfg.ngrp ≤ g.toNat → exec (.tgrp g) s =
      .next (faulted s 9 (BitVec.ofNat 32 g.toNat) (BitVec.ofNat 32 s.cfg.ngrp))) ∧
    (∀ set, s.cfg.groups[g.toNat]? = some set → exec (.tgrp g) s =
      .next (answered s 0 (BitVec.ofNat 32 (set.size.toNat * 2 ^ 16 + set.offset.toNat)) []))

/-- SMRG (R140): the empty list is `IllegalCommand`; the first invalid set word is `BadSet(s_j, NCTX)`; else the bounding
union of the sets, `lo` their least offset and `hi` their greatest end. -/
def Obligations.SmrgReturnsBoundingUnion : Prop :=
  ∀ (s : State) (sets : List Word), s.halt = false → s.cfg.WF →
    (sets = [] → exec (.smrg sets) s = .next (faulted s 1 0x23000000 0)) ∧
    (∀ before bad after, sets = before ++ bad :: after →
      (∀ w ∈ before, w.toNat % 2 ^ 16 + w.toNat / 2 ^ 16 ≤ s.cfg.nctx) →
      s.cfg.nctx < bad.toNat % 2 ^ 16 + bad.toNat / 2 ^ 16 →
      exec (.smrg sets) s = .next (faulted s 8 bad (BitVec.ofNat 32 s.cfg.nctx))) ∧
    (∀ lo hi : Nat, (∀ w ∈ sets, w.toNat % 2 ^ 16 + w.toNat / 2 ^ 16 ≤ s.cfg.nctx) →
      (∃ w ∈ sets, w.toNat % 2 ^ 16 = lo) → (∀ w ∈ sets, lo ≤ w.toNat % 2 ^ 16) →
      (∃ w ∈ sets, w.toNat % 2 ^ 16 + w.toNat / 2 ^ 16 = hi) →
      (∀ w ∈ sets, w.toNat % 2 ^ 16 + w.toNat / 2 ^ 16 ≤ hi) →
      exec (.smrg sets) s = .next (answered s 0 (BitVec.ofNat 32 ((hi - lo) * 2 ^ 16 + lo)) []))

/-! ### Bank commands, the common checks passed -/

/-- BNEW (R151): the bank is live, with `NCTX` zeroed slots and `NGR` zero words, whatever it held. -/
def Obligations.BnewZeroesBank : Prop :=
  ∀ (s : State) (b : BankNo), s.halt = false → s.Shape → b.toNat < s.cfg.nbank →
    ∃ t, exec (.bnew b) s = .next t ∧ t.liveAt b.toNat = true ∧
      (∀ i, t.slotAt b.toNat i = if i < s.cfg.nctx then some ⟨0, 0, 0⟩ else none) ∧
      (∀ k, t.statAt b.toNat k = if k < s.cfg.ngr then some 0 else none) ∧ CompletesOnBank s t b.toNat

/-- BFREE (R152): the bank is dummy, live before or not. -/
def Obligations.BfreeMakesDummy : Prop :=
  ∀ (s : State) (b : BankNo), s.halt = false → s.Shape → b.toNat < s.cfg.nbank →
    ∃ t, exec (.bfree b) s = .next t ∧ t.bankAt b.toNat = none ∧ CompletesOnBank s t b.toNat

/-- BINIT (R153): `BadInitId` for `initId >= 3`; then the first context whose rate is invalid raises `BadRate`; else every
slot `i` has the count of its seed in row `initId` at the clipped QP, and its rate from row 3; `GR` kept. -/
def Obligations.BinitSeedsBank : Prop :=
  ∀ (s : State) (b : BankNo) (qp initId : Byte), s.halt = false → s.liveAt b.toNat = true →
    (3 ≤ initId.toNat → exec (.binit b qp initId) s = .next (faulted s 5 (BitVec.ofNat 32 initId.toNat) 0)) ∧
    (∀ i e, initId.toNat < 3 → s.cfg.initRom[i]? = some e → s.cfg.ratePairs[e.rate.toNat]? = some none →
      (∀ j f, j < i → s.cfg.initRom[j]? = some f → s.cfg.ratePairs[f.rate.toNat]? ≠ some none) →
      exec (.binit b qp initId) s = .next (faulted s 7 (BitVec.ofNat 32 i) (BitVec.ofNat 32 e.rate.toNat))) ∧
    (initId.toNat < 3 → (∀ e ∈ s.cfg.initRom, s.cfg.ratePairs[e.rate.toNat]? ≠ some none) →
      ∃ t, exec (.binit b qp initId) s = .next t ∧ CompletesOnBank s t b.toNat ∧
        (∀ i e, s.cfg.initRom[i]? = some e → ∃ seed count, [e.seedI, e.seedP, e.seedB][initId.toNat]? = some seed ∧
          SeedCount s.cfg qp seed count ∧ t.slotAt b.toNat i =
            some ⟨masked count.toNat s.cfg.prec0, masked count.toNat s.cfg.prec1, e.rate⟩) ∧
        (∀ i, s.cfg.nctx ≤ i → t.slotAt b.toNat i = none) ∧ ∀ k, t.statAt b.toNat k = s.statAt b.toNat k)

/-- BCPY (R155): the destination is what the source is, live or dummy, slots and `GR` alike; with `dst = src` nothing
changes. -/
def Obligations.BcpyCopiesBank : Prop :=
  ∀ (s : State) (dst src : BankNo), s.halt = false → s.Shape → dst.toNat < s.cfg.nbank → src.toNat < s.cfg.nbank →
    ∃ t, exec (.bcpy dst src) s = .next t ∧ t.bankAt dst.toNat = s.bankAt src.toNat ∧ CompletesOnBank s t dst.toNat

/-- BCPR (R156): slots `off .. off + size - 1` from the source, the others and both banks' `GR` kept; `BadSet` when the
range leaves the bank. -/
def Obligations.BcprCopiesRange : Prop :=
  ∀ (s : State) (dst src : BankNo) (off size : Half), s.halt = false → s.Shape →
    s.liveAt dst.toNat = true → s.liveAt src.toNat = true →
    (s.cfg.nctx < off.toNat + size.toNat → exec (.bcpr dst src off size) s =
      .next (faulted s 8 (BitVec.ofNat 32 (size.toNat * 2 ^ 16 + off.toNat)) (BitVec.ofNat 32 s.cfg.nctx))) ∧
    (off.toNat + size.toNat ≤ s.cfg.nctx → ∃ t, exec (.bcpr dst src off size) s = .next t ∧
      CompletesOnBank s t dst.toNat ∧
      (∀ i, t.slotAt dst.toNat i =
        if off.toNat ≤ i ∧ i < off.toNat + size.toNat then s.slotAt src.toNat i else s.slotAt dst.toNat i) ∧
      ∀ k, t.statAt dst.toNat k = s.statAt dst.toNat k)

/-- BLD (R157): `SizeMismatch(NCTX, LEN)`, or every slot has its word's fields, masked; `W` and `GR` kept. -/
def Obligations.BldLoadsStates : Prop :=
  ∀ (s : State) (b : BankNo) (words : List Word), s.halt = false → s.Shape → s.liveAt b.toNat = true →
    (words.length ≠ s.cfg.nctx → exec (.bld b words) s =
      .next (faulted s 4 (BitVec.ofNat 32 s.cfg.nctx) (BitVec.ofNat 32 words.length))) ∧
    (words.length = s.cfg.nctx → ∃ t, exec (.bld b words) s = .next t ∧ CompletesOnBank s t b.toNat ∧
      (∀ i w p, words[i]? = some w → s.slotAt b.toNat i = some p → t.slotAt b.toNat i =
        some ⟨masked (w.toNat % 2 ^ 15) s.cfg.prec0, masked (w.toNat / 2 ^ 16 % 2 ^ 15) s.cfg.prec1, p.w⟩) ∧
      (∀ i, s.cfg.nctx ≤ i → t.slotAt b.toNat i = none) ∧ ∀ k, t.statAt b.toNat k = s.statAt b.toNat k)

/-- BSV (R158): `SizeMismatch(NCTX, LEN)`, or the state words of all slots in order; nothing changes. -/
def Obligations.BsvSavesStates : Prop :=
  ∀ (s : State) (b : BankNo) (len : Half), s.halt = false → s.Shape → s.liveAt b.toNat = true →
    (len.toNat ≠ s.cfg.nctx → exec (.bsv b len) s =
      .next (faulted s 4 (BitVec.ofNat 32 s.cfg.nctx) (BitVec.ofNat 32 len.toNat))) ∧
    (len.toNat = s.cfg.nctx → ∃ out, exec (.bsv b len) s = .next (answered s 0 0 out) ∧ out.length = s.cfg.nctx ∧
      ∀ i p, s.slotAt b.toNat i = some p → out[i]? = some (BitVec.ofNat 32 (p.p1.toNat * 2 ^ 16 + p.p0.toNat)))

/-- BWIN (R161): `SizeMismatch(NCTX, LEN)`, then `BadRate` for the first byte without a pair, else every slot has its rate
from bits [7:0] of its word; `P0`, `P1` and `GR` kept. -/
def Obligations.BwinSetsRates : Prop :=
  ∀ (s : State) (b : BankNo) (rates : List Word), s.halt = false → s.Shape → s.liveAt b.toNat = true →
    (rates.length ≠ s.cfg.nctx → exec (.bwin b rates) s =
      .next (faulted s 4 (BitVec.ofNat 32 s.cfg.nctx) (BitVec.ofNat 32 rates.length))) ∧
    (∀ i v, rates.length = s.cfg.nctx → rates[i]? = some v → s.cfg.ratePairs[v.toNat % 2 ^ 8]? = some none →
      (∀ j u, j < i → rates[j]? = some u → s.cfg.ratePairs[u.toNat % 2 ^ 8]? ≠ some none) →
      exec (.bwin b rates) s = .next (faulted s 7 (BitVec.ofNat 32 i) (BitVec.ofNat 32 (v.toNat % 2 ^ 8)))) ∧
    (rates.length = s.cfg.nctx → (∀ v ∈ rates, s.cfg.ratePairs[v.toNat % 2 ^ 8]? ≠ some none) →
      ∃ t, exec (.bwin b rates) s = .next t ∧ CompletesOnBank s t b.toNat ∧
        (∀ i v p, rates[i]? = some v → s.slotAt b.toNat i = some p →
          t.slotAt b.toNat i = some { p with w := BitVec.ofNat 8 (v.toNat % 2 ^ 8) }) ∧
        (∀ i, s.cfg.nctx ≤ i → t.slotAt b.toNat i = none) ∧ ∀ k, t.statAt b.toNat k = s.statAt b.toNat k)

/-- GRRD (R162): `DATA = GR[k]`, or `BadStat(k, NGR)`; nothing changes. -/
def Obligations.GrrdReadsStatistic : Prop :=
  ∀ (s : State) (b : BankNo) (k : Half), s.halt = false → s.Shape → s.liveAt b.toNat = true →
    (s.cfg.ngr ≤ k.toNat → exec (.grrd b k) s =
      .next (faulted s 10 (BitVec.ofNat 32 k.toNat) (BitVec.ofNat 32 s.cfg.ngr))) ∧
    (∀ v, s.statAt b.toNat k.toNat = some v → exec (.grrd b k) s = .next (answered s 0 v []))

/-- GRWR (R163): `GR[k] <- value`, or `BadStat(k, NGR)`; every other word and every slot kept. -/
def Obligations.GrwrWritesStatistic : Prop :=
  ∀ (s : State) (b : BankNo) (k : Half) (value : Word), s.halt = false → s.Shape → s.liveAt b.toNat = true →
    (s.cfg.ngr ≤ k.toNat → exec (.grwr b k value) s =
      .next (faulted s 10 (BitVec.ofNat 32 k.toNat) (BitVec.ofNat 32 s.cfg.ngr))) ∧
    (k.toNat < s.cfg.ngr → ∃ t, exec (.grwr b k value) s = .next t ∧ CompletesOnBank s t b.toNat ∧
      t.liveAt b.toNat = true ∧ t.statAt b.toNat k.toNat = some value ∧
      (∀ j, j ≠ k.toNat → t.statAt b.toNat j = s.statAt b.toNat j) ∧ ∀ i, t.slotAt b.toNat i = s.slotAt b.toNat i)

/-! ### Renormalization -/

/-- RNM (R190, whose class is general knowledge the spec makes normative, log 7): `shift = RENORM_TABLE[w >> 3]`,
`val = (w << shift) & 0x1FF`, `DATA = (val << 16) | shift`. -/
def Obligations.RnmReturnsShift : Prop :=
  ∀ (s : State) (w : Byte), s.halt = false →
    ∃ shift, s.cfg.renormTable[w.toNat / 8]? = some shift ∧
      exec (.rnm w) s = .next (answered s 0
        (BitVec.ofNat 32 (w.toNat * 2 ^ shift.toNat % 2 ^ 9 * 2 ^ 16 + shift.toNat)) [])

/-! ### Properties of the arithmetic -/

/-- The bounds of one update (41_probability_model.md section 4, "Bounds of the update", marked derived there), on the model's
own update: from a field zero outside its mask, for every shift and both bins, the 15-bit result is `P - d + a` computed on
integers, so nothing wraps, and it is zero outside the mask; at full precision and a shift of at least 1 a field strictly
inside stays strictly inside. -/
def Obligations.UpdateStaysInRange : Prop :=
  ∀ (p : Estimate) (prec r : Nat) (bin : Bool), 1 ≤ prec → prec ≤ 15 → p &&& ~~~fieldMask prec = 0 →
    ∃ q, q = updateEstimate (fieldMask prec) r bin p ∧
      (q.toNat : Int) = p.toNat - ((p.toNat >>> r &&& maskOf prec : Nat) : Int) +
        (if bin then ((32767 >>> r &&& maskOf prec : Nat) : Int) else 0) ∧
      q &&& ~~~fieldMask prec = 0 ∧
      (prec = 15 → 1 ≤ r → (0 < p.toNat → 0 < q.toNat) ∧ (p.toNat < 32767 → q.toNat < 32767))

/-- The fixed points of repeated updates (41_probability_model.md section 4, "Fixed points"), on the model's own update at
full precision: `2^r - 1` under bin 0 and `32768 - 2^r` under bin 1 are reached and kept; fields beyond do not move. -/
def Obligations.UpdateReachesFixedPoints : Prop :=
  ∀ (r : Nat) (p : Estimate), 1 ≤ r → r ≤ 15 →
    (2 ^ r - 1 ≤ p.toNat → ∃ n, ∀ m, n ≤ m →
      ((updateEstimate (fieldMask 15) r false)^[m] p).toNat = 2 ^ r - 1) ∧
    (p.toNat < 2 ^ r → updateEstimate (fieldMask 15) r false p = p) ∧
    (p.toNat ≤ 32768 - 2 ^ r → ∃ n, ∀ m, n ≤ m →
      ((updateEstimate (fieldMask 15) r true)^[m] p).toNat = 32768 - 2 ^ r) ∧
    (32768 - 2 ^ r < p.toNat → updateEstimate (fieldMask 15) r true p = p)

/-- The range invariant of one slot (10_state.md section 7, "Range invariant", marked derived there), at full precision and
under a well-formed configuration. A command that stores no raw state in the slot and copies none into it keeps it strictly
between 0 and `PROB_MAX`; a completed copy makes it so when the slot copied is; a completed `PINIT` or `BINIT` makes it so
whatever it held. Other slots and banks may hold anything. -/
def Obligations.CodingKeepsEstimatesInterior : Prop :=
  ∀ (i : Instr) (s t : State) (b j : Nat), s.cfg.WF → s.cfg.prec0 = 15 → s.cfg.prec1 = 15 → s.Shape →
    exec i s = .next t →
    (storesRawAt i b j = false → copiesFrom i b j = none → s.InteriorAt b j → t.InteriorAt b j) ∧
    (∀ c, copiesFrom i b j = some c → t.halt = false → s.InteriorAt c.toNat j → t.InteriorAt b j) ∧
    (seedsAt i b j = true → t.halt = false → t.InteriorAt b j)

/-- The range invariant as R36 puts it, over runs (marked derived there): once `PINIT` or `BINIT` has set a slot, it stays
strictly between 0 and `PROB_MAX` through any commands that store no raw state in it and copy none into it. -/
def Obligations.SeededEstimatesStayInterior : Prop :=
  ∀ (i : Instr) (is : List Instr) (s t u : State) (b j : Nat), s.cfg.WF → s.cfg.prec0 = 15 → s.cfg.prec1 = 15 →
    s.Shape → seedsAt i b j = true → exec i s = .next t → t.halt = false →
    (∀ k ∈ is, storesRawAt k b j = false ∧ copiesFrom k b j = none) → execAll is t = .next u → u.InteriorAt b j

/-- PSET of any word, then PGET: the word comes back masked (41_probability_model.md section 5, "Round trip"). -/
def Obligations.PsetThenPgetReturnsMaskedWord : Prop :=
  ∀ (s : State) (b : BankNo) (off sub : Half) (word : Word) (p : Slot),
    s.halt = false → s.slotAt b.toNat (off.toNat + sub.toNat) = some p →
    ∃ t, exec (.pset b off sub word) s = .next t ∧
      exec (.pget b off sub) t = .next (answered t 0 (BitVec.ofNat 32
        ((word.toNat / 2 ^ 16 % 2 ^ 15 &&& maskOf s.cfg.prec1) * 2 ^ 16 +
          (word.toNat % 2 ^ 15 &&& maskOf s.cfg.prec0))) [])

/-- Slot by slot, BINIT leaves what PINIT with the context's seed and then PRATE with its rate leave
(41_probability_model.md section 2; 43_context_banks.md section 3). -/
def Obligations.BinitIsPinitThenPrate : Prop :=
  ∀ (s t u : State) (b : BankNo) (off sub : Half) (qp initId seed : Byte) (e : ContextEntry),
    s.halt = false → s.Shape → s.cfg.initRom[off.toNat + sub.toNat]? = some e →
    [e.seedI, e.seedP, e.seedB][initId.toNat]? = some seed →
    exec (.binit b qp initId) s = .next t → t.halt = false →
    execAll [.pinit b off sub qp seed, .prate b off sub e.rate] s = .next u →
    u.halt = false ∧ t.slotAt b.toNat (off.toNat + sub.toNat) = u.slotAt b.toNat (off.toNat + sub.toNat)

/-- The rollback (43_context_banks.md section 5, "Round trips"): copy `a` to `snap`, run any commands that write no bank but
`a`, copy back: `a` is exactly what it was. -/
def Obligations.RollbackRestoresBank : Prop :=
  ∀ (s t u v : State) (a snap : BankNo) (is : List Instr), s.halt = false → snap ≠ a →
    exec (.bcpy snap a) s = .next t → t.halt = false →
    (∀ i ∈ is, writtenBank i = none ∨ writtenBank i = some a) → execAll is t = .next u → u.halt = false →
    exec (.bcpy a snap) u = .next v →
    v.halt = false ∧ v.bankAt a.toNat = s.bankAt a.toNat

/-- BSV of one bank, then BLD of the returned vector into another, makes both estimates of every slot equal; the rates stay
(43_context_banks.md section 5, "Round trips"). -/
def Obligations.SaveThenLoadTransplantsStates : Prop :=
  ∀ (s t : State) (b c : BankNo) (len : Half) (out : List Word), s.halt = false → s.Shape → s.MaskInvariant →
    s.liveAt b.toNat = true → s.liveAt c.toNat = true → len.toNat = s.cfg.nctx →
    exec (.bsv b len) s = .next (answered s 0 0 out) → exec (.bld c out) (answered s 0 0 out) = .next t →
    t.halt = false ∧ ∀ i p q, s.slotAt b.toNat i = some p → s.slotAt c.toNat i = some q →
      t.slotAt c.toNat i = some { p with w := q.w }

/-- Registration (R130): the groups follow each other from 0 and cover exactly the contexts registered, and context
`j` of group `g` is the ROM column at the group's offset plus `j`. -/
def Obligations.RegistrationIsContiguous : Prop :=
  ∀ (c : Config) (reg : List (List ContextEntry)), reg.flatten.length ≤ 65535 →
    (registerAll c reg).ngrp = reg.length ∧ (registerAll c reg).nctx = (reg.map List.length).sum ∧
    contiguous 0 (registerAll c reg).nctx (registerAll c reg).groups ∧
    ∀ g group, reg[g]? = some group → ∃ set, (registerAll c reg).groups[g]? = some set ∧
      set.offset.toNat = ((reg.take g).map List.length).sum ∧ set.size.toNat = group.length ∧
      ∀ j, j < group.length → (registerAll c reg).initRom[set.offset.toNat + j]? = group[j]?
end

