-- ==== Sys2Proof/Laws/Decode.lean ====
section
/-! SUPPORT. The fields of a packed command word, the opcode map, and what a command that decodes looks like. -/

namespace Sys2Proof

variable (op : Opcode) (bd bs : BankNo) (a b c : Half)

/-! ### Fields of a packed word (R71) -/

/-- A packed word as a number. -/
theorem packWord_toNat : (packWord op bd bs a b c).toNat =
    ((((op.code.toNat * 2 ^ 4 + bd.toNat) * 2 ^ 4 + bs.toNat) * 2 ^ 16 + a.toNat) * 2 ^ 16 + b.toNat) * 2 ^ 16 +
      c.toNat := by
  simp only [packWord, toNat_append_add]

@[simp] theorem fieldOpc_pack : fieldOpc (packWord op bd bs a b c) = op.code := by
  apply BitVec.eq_of_toNat_eq
  have := op.code.isLt; have := bd.isLt; have := bs.isLt; have := a.isLt; have := b.isLt; have := c.isLt
  rw [fieldOpc, toNat_slice, packWord_toNat]; omega

@[simp] theorem fieldBd_pack : fieldBd (packWord op bd bs a b c) = bd := by
  apply BitVec.eq_of_toNat_eq
  have := bd.isLt; have := bs.isLt; have := a.isLt; have := b.isLt; have := c.isLt
  rw [fieldBd, toNat_slice, packWord_toNat]; omega

@[simp] theorem fieldBs_pack : fieldBs (packWord op bd bs a b c) = bs := by
  apply BitVec.eq_of_toNat_eq
  have := bs.isLt; have := a.isLt; have := b.isLt; have := c.isLt
  rw [fieldBs, toNat_slice, packWord_toNat]; omega

@[simp] theorem fieldA_pack : fieldA (packWord op bd bs a b c) = a := by
  apply BitVec.eq_of_toNat_eq
  have := a.isLt; have := b.isLt; have := c.isLt
  rw [fieldA, toNat_slice, packWord_toNat]; omega

@[simp] theorem fieldB_pack : fieldB (packWord op bd bs a b c) = b := by
  apply BitVec.eq_of_toNat_eq
  have := b.isLt; have := c.isLt
  rw [fieldB, toNat_slice, packWord_toNat]; omega

@[simp] theorem fieldChi_pack : fieldChi (packWord op bd bs a b c) = c.extractLsb' 8 8 := by
  apply BitVec.eq_of_toNat_eq
  have := c.isLt
  rw [fieldChi, toNat_slice, toNat_slice, packWord_toNat]; omega

@[simp] theorem fieldClo_pack : fieldClo (packWord op bd bs a b c) = c.extractLsb' 0 8 := by
  apply BitVec.eq_of_toNat_eq
  have := c.isLt
  rw [fieldClo, toNat_slice, toNat_slice, packWord_toNat]; omega

@[simp] theorem fieldBin_pack : fieldBin (packWord op bd bs a b c) = c.getLsbD 0 := by
  simp only [fieldBin, packWord, BitVec.getLsbD_append]; rfl

@[simp] theorem high_byte (x y : Byte) : (x ++ y : BitVec 16).extractLsb' 8 8 = x := by
  apply BitVec.eq_of_toNat_eq
  have := x.isLt; have := y.isLt
  rw [toNat_slice, toNat_append_add]; omega

@[simp] theorem low_byte (x y : Byte) : (x ++ y : BitVec 16).extractLsb' 0 8 = y := by
  apply BitVec.eq_of_toNat_eq
  have := x.isLt; have := y.isLt
  rw [toNat_slice, toNat_append_add]; omega

@[simp] theorem bin_bit (v : Bool) : (binC v).getLsbD 0 = v := by cases v <;> rfl

/-- Every packed word is its fields packed: no bit of a command word is outside the six fields. -/
theorem pack_fields (cw : LongWord) :
    fieldOpc cw ++ fieldBd cw ++ fieldBs cw ++ fieldA cw ++ fieldB cw ++ (fieldChi cw ++ fieldClo cw) = cw := by
  apply BitVec.eq_of_toNat_eq
  have := cw.isLt
  simp only [toNat_append_add, fieldOpc, fieldBd, fieldBs, fieldA, fieldB, fieldChi, fieldClo, toNat_slice]
  omega

/-! ### The opcode map (R72, R76) -/

@[simp] theorem ofByte_code : Opcode.ofByte op.code = some op := by cases op <;> rfl

/-- An opcode byte selects a command exactly when it is that command's byte. -/
theorem ofByte_eq_some {v : Byte} {op : Opcode} : Opcode.ofByte v = some op ↔ v = op.code := by
  constructor
  · intro h
    have := List.find?_some h
    simpa using (beq_iff_eq.mp this).symm
  · rintro rfl; exact ofByte_code op

/-! ### Reserved fields (R72, R77) -/

/-- Two packed values are zero together. -/
theorem append_eq_zero {m n : Nat} (x : BitVec m) (y : BitVec n) : x ++ y = 0#(m + n) ↔ x = 0#m ∧ y = 0#n := by
  constructor
  · intro h
    have h' : x.toNat * 2 ^ n + y.toNat = 0 := by rw [← toNat_append_add, h]; simp
    have hp : 0 < 2 ^ n := Nat.two_pow_pos n
    have hy : y.toNat = 0 := by omega
    have hx : x.toNat = 0 := by
      have : x.toNat * 2 ^ n = 0 := by omega
      rcases Nat.mul_eq_zero.mp this with h | h <;> omega
    exact ⟨BitVec.eq_of_toNat_eq (by simpa using hx), BitVec.eq_of_toNat_eq (by simpa using hy)⟩
  · rintro ⟨rfl, rfl⟩; exact BitVec.zero_append_zero

/-- The reserved bits, field by field; the opcode has none. -/
theorem reserved_fields : op.reserved = 0#8 ++ fieldBd op.reserved ++ fieldBs op.reserved ++ fieldA op.reserved ++
    fieldB op.reserved ++ op.reserved.extractLsb' 0 16 := by
  cases op <;> decide

/-- A packed word has its reserved bits zero exactly when each field has. -/
theorem packed_reserved_iff {o : Byte} : (o ++ bd ++ bs ++ a ++ b ++ c : LongWord) &&& op.reserved = 0 ↔
    bd &&& fieldBd op.reserved = 0 ∧ bs &&& fieldBs op.reserved = 0 ∧ a &&& fieldA op.reserved = 0 ∧
      b &&& fieldB op.reserved = 0 ∧ c &&& op.reserved.extractLsb' 0 16 = 0 := by
  conv_lhs => rw [reserved_fields op]
  have hz : (0 : LongWord) = 0#(8 + 4 + 4 + 16 + 16 + 16) := rfl
  rw [BitVec.and_append, BitVec.and_append, BitVec.and_append, BitVec.and_append, BitVec.and_append, hz]
  simp only [append_eq_zero, BitVec.and_zero]
  simp [and_assoc]

/-! ### Decoding, case by case -/

/-- All that decoding does: the opcode is known, its reserved bits are zero, and the operands assemble. -/
theorem decode_ok {c : Command} {i : Instr} :
    decode c = .ok i ↔ ∃ op, fieldOpc c.cw = Opcode.code op ∧ c.cw &&& op.reserved = 0 ∧ op.assemble c.cw c.pl = .ok i := by
  unfold decode
  constructor
  · intro h
    split at h
    · cases h
    · rename_i op hop
      split at h
      · exact ⟨op, ofByte_eq_some.mp hop, ‹_›, h⟩
      · cases h
  · rintro ⟨op, hop, hz, ha⟩
    rw [ofByte_eq_some.mpr hop]
    simp [hz, ha]

@[simp] theorem takeNone_ok {pl : List Word} {i j : Instr} : takeNone pl i = .ok j ↔ pl = [] ∧ i = j := by
  cases pl <;> simp [takeNone]

@[simp] theorem takeOne_ok {pl : List Word} {f : Word → Instr} {j : Instr} :
    takeOne pl f = .ok j ↔ ∃ w, pl = [w] ∧ f w = j := by
  rcases pl with _ | ⟨w, _ | ⟨v, l⟩⟩ <;> simp [takeOne]

@[simp] theorem takeLen_ok {cw : LongWord} {pl : List Word} {f : List Word → Instr} {j : Instr} :
    takeLen cw pl f = .ok j ↔ pl.length = (fieldA cw).toNat ∧ f pl = j := by
  unfold takeLen; split <;> simp [*]

/-- The operands assemble exactly when the payload has the length that R73 asks for. -/
theorem assemble_ok {op : Opcode} {cw : LongWord} {pl : List Word} :
    (∃ i, op.assemble cw pl = .ok i) ↔ pl.length = op.payloadLength cw := by
  cases op <;> simp [Opcode.assemble, Opcode.payloadLength, List.length_eq_one_iff]

end Sys2Proof
end

