-- ==== Sys2Proof/Laws/State.lean ====
section
/-! SUPPORT. One lemma per field per update of the state, so that no later proof unfolds a record update. -/

namespace Sys2Proof.Machine

variable (s : State) (st : Byte) (data : Word) (out : List Word) (v : Violation) (b : BankNo) (o : Option Bank)

/-! ### respond -/

@[simp] theorem respond_cfg : (s.respond st data out).cfg = s.cfg := rfl
@[simp] theorem respond_banks : (s.respond st data out).banks = s.banks := rfl
@[simp] theorem respond_fcode : (s.respond st data out).fcode = s.fcode := rfl
@[simp] theorem respond_finfo0 : (s.respond st data out).finfo0 = s.finfo0 := rfl
@[simp] theorem respond_finfo1 : (s.respond st data out).finfo1 = s.finfo1 := rfl
@[simp] theorem respond_halt : (s.respond st data out).halt = s.halt := rfl
@[simp] theorem respond_inputs : (s.respond st data out).inputs = s.inputs := rfl
@[simp] theorem respond_freeCount : (s.respond st data out).freeCount = s.freeCount := rfl
@[simp] theorem respond_responses :
    (s.respond st data out).responses = s.responses ++ [⟨responseWord st data, out⟩] := rfl

/-! ### enterFault -/

@[simp] theorem enterFault_cfg : (s.enterFault v).cfg = s.cfg := rfl
@[simp] theorem enterFault_banks : (s.enterFault v).banks = s.banks := rfl
@[simp] theorem enterFault_fcode : (s.enterFault v).fcode = v.code := rfl
@[simp] theorem enterFault_finfo0 : (s.enterFault v).finfo0 = v.info0 := rfl
@[simp] theorem enterFault_finfo1 : (s.enterFault v).finfo1 = v.info1 := rfl
@[simp] theorem enterFault_halt : (s.enterFault v).halt = true := rfl
@[simp] theorem enterFault_inputs : (s.enterFault v).inputs = s.inputs := rfl
@[simp] theorem enterFault_freeCount : (s.enterFault v).freeCount = s.freeCount := rfl
@[simp] theorem enterFault_responses :
    (s.enterFault v).responses = s.responses ++ [⟨responseWord v.code v.info0, []⟩] := rfl

/-! ### putBank -/

@[simp] theorem putBank_cfg : (s.putBank b o).cfg = s.cfg := rfl
@[simp] theorem putBank_banks : (s.putBank b o).banks = s.banks.set b.toNat o := rfl
@[simp] theorem putBank_fcode : (s.putBank b o).fcode = s.fcode := rfl
@[simp] theorem putBank_finfo0 : (s.putBank b o).finfo0 = s.finfo0 := rfl
@[simp] theorem putBank_finfo1 : (s.putBank b o).finfo1 = s.finfo1 := rfl
@[simp] theorem putBank_halt : (s.putBank b o).halt = s.halt := rfl
@[simp] theorem putBank_inputs : (s.putBank b o).inputs = s.inputs := rfl
@[simp] theorem putBank_responses : (s.putBank b o).responses = s.responses := rfl
@[simp] theorem putBank_freeCount : (s.putBank b o).freeCount = s.freeCount := rfl

/-! ### clear -/

@[simp] theorem clear_cfg : s.clear.cfg = s.cfg := rfl
@[simp] theorem clear_banks : s.clear.banks = List.replicate s.cfg.nbank none := rfl
@[simp] theorem clear_fcode : s.clear.fcode = 0 := rfl
@[simp] theorem clear_finfo0 : s.clear.finfo0 = 0 := rfl
@[simp] theorem clear_finfo1 : s.clear.finfo1 = 0 := rfl
@[simp] theorem clear_halt : s.clear.halt = false := rfl
@[simp] theorem clear_inputs : s.clear.inputs = s.inputs := rfl
@[simp] theorem clear_responses : s.clear.responses = s.responses := rfl
@[simp] theorem clear_freeCount : s.clear.freeCount = s.freeCount := rfl

/-! ### clearDuring -/

@[simp] theorem clearDuring_cfg : s.clearDuring.cfg = s.cfg := rfl
@[simp] theorem clearDuring_banks : s.clearDuring.banks = List.replicate s.cfg.nbank none := rfl
@[simp] theorem clearDuring_fcode : s.clearDuring.fcode = 0 := rfl
@[simp] theorem clearDuring_finfo0 : s.clearDuring.finfo0 = 0 := rfl
@[simp] theorem clearDuring_finfo1 : s.clearDuring.finfo1 = 0 := rfl
@[simp] theorem clearDuring_halt : s.clearDuring.halt = false := rfl
@[simp] theorem clearDuring_inputs : s.clearDuring.inputs = s.inputs := rfl
@[simp] theorem clearDuring_freeCount : s.clearDuring.freeCount = s.freeCount + 1 := rfl

/-! ### Observations read the banks alone -/

variable {s} {t : State}

theorem bankAt_congr (h : t.banks = s.banks) (n : Nat) : t.bankAt n = s.bankAt n := by simp [State.bankAt, h]

theorem slotAt_congr (h : t.banks = s.banks) (n i : Nat) : t.slotAt n i = s.slotAt n i := by
  simp [State.slotAt, bankAt_congr h]

theorem statAt_congr (h : t.banks = s.banks) (n k : Nat) : t.statAt n k = s.statAt n k := by
  simp [State.statAt, bankAt_congr h]

theorem liveAt_congr (h : t.banks = s.banks) (n : Nat) : t.liveAt n = s.liveAt n := by
  simp [State.liveAt, bankAt_congr h]

@[simp] theorem bankAt_respond (n : Nat) : (s.respond st data out).bankAt n = s.bankAt n := rfl
@[simp] theorem slotAt_respond (n i : Nat) : (s.respond st data out).slotAt n i = s.slotAt n i := rfl
@[simp] theorem statAt_respond (n k : Nat) : (s.respond st data out).statAt n k = s.statAt n k := rfl
@[simp] theorem liveAt_respond (n : Nat) : (s.respond st data out).liveAt n = s.liveAt n := rfl

/-- A live bank is there under its number. -/
theorem bankAt_eq_some {n : Nat} {bank : Bank} : s.bankAt n = some bank ↔ s.banks[n]? = some (some bank) := by
  unfold State.bankAt
  cases h : s.banks[n]? with
  | none => simp
  | some x => simp

/-- The bank written is what was written. -/
theorem bankAt_putBank_self (h : b.toNat < s.banks.length) : (s.putBank b o).bankAt b.toNat = o := by
  simp [State.bankAt, h]

/-- No other bank is touched. -/
theorem bankAt_putBank_ne {n : Nat} (h : n ≠ b.toNat) : (s.putBank b o).bankAt n = s.bankAt n := by
  simp [State.bankAt, Ne.symm h]

theorem bankAt_lt {n : Nat} {bank : Bank} (h : s.bankAt n = some bank) : n < s.banks.length := by
  rw [bankAt_eq_some] at h
  exact (List.getElem?_eq_some_iff.mp h).1

theorem slotAt_eq {n : Nat} {bank : Bank} (h : s.bankAt n = some bank) (i : Nat) : s.slotAt n i = bank.slots[i]? := by
  simp [State.slotAt, h]

theorem statAt_eq {n : Nat} {bank : Bank} (h : s.bankAt n = some bank) (k : Nat) : s.statAt n k = bank.gr[k]? := by
  simp [State.statAt, h]

/-- A slot that is there is in a live bank. -/
theorem slotAt_eq_some {n i : Nat} {slot : Slot} (h : s.slotAt n i = some slot) :
    ∃ bank, s.bankAt n = some bank ∧ bank.slots[i]? = some slot := by
  unfold State.slotAt at h
  cases hb : s.bankAt n with
  | none => simp [hb] at h
  | some bank => exact ⟨bank, rfl, by simpa [hb] using h⟩

/-- What holds of every slot of every live bank holds of every slot read. -/
theorem forall_slotAt {P : Slot → Prop} (h : ∀ bank, some bank ∈ s.banks → ∀ x ∈ bank.slots, P x) {n i : Nat} {slot : Slot}
    (hx : s.slotAt n i = some slot) : P slot := by
  obtain ⟨bank, hb, hg⟩ := slotAt_eq_some hx
  exact h bank (List.mem_of_getElem? (bankAt_eq_some.mp hb)) slot (List.mem_of_getElem? hg)

theorem liveAt_eq_true {n : Nat} (h : s.liveAt n = true) : ∃ bank, s.bankAt n = some bank :=
  Option.isSome_iff_exists.mp h

/-- A live bank of a state of the right shape has `NCTX` slots. -/
theorem State.Shape.slots {s : State} (hs : s.Shape) {n : Nat} {bank : Bank} (h : s.bankAt n = some bank) :
    bank.slots.length = s.cfg.nctx :=
  hs.slot_count bank (List.mem_of_getElem? (bankAt_eq_some.mp h))

/-- A live bank of a state of the right shape has `NGR` statistics words. -/
theorem State.Shape.stats {s : State} (hs : s.Shape) {n : Nat} {bank : Bank} (h : s.bankAt n = some bank) :
    bank.gr.length = s.cfg.ngr :=
  hs.stat_count bank (List.mem_of_getElem? (bankAt_eq_some.mp h))

end Sys2Proof.Machine
end

