-- ==== Sys2Proof/Laws/Words.lean ====
section
/-! SUPPORT. Packed words read as numbers: the layouts of R24, R28, R74, R116 and R190. -/

namespace Sys2Proof.Machine

open Sys2Proof

/-- The response word is the number R74 lays out. -/
theorem responseWord_eq (st : Byte) (data : Word) :
    responseWord st data = BitVec.ofNat 64 (st.toNat * 2 ^ 56 + data.toNat) := by
  apply BitVec.eq_of_toNat_eq
  have hs := st.isLt
  have hd := data.isLt
  simp only [responseWord, toNat_append_add, BitVec.toNat_ofNat]
  omega

/-- A delivered response is the pair R74 describes. -/
theorem response_eq_rsp (st : Byte) (data : Word) (out : List Word) :
    (⟨responseWord st data, out⟩ : Response) = rsp st data out := by
  rw [responseWord_eq]; rfl

/-- Responding adds the response R74 describes and nothing else. -/
theorem respond_eq_answered (s : State) (st : Byte) (data : Word) (out : List Word) :
    s.respond st data out = answered s st data out := by
  simp only [State.respond, answered, response_eq_rsp]

/-- Fault entry is what R214 lists and nothing else. -/
theorem enterFault_eq_faulted (s : State) (v : Violation) : s.enterFault v = faulted s v.code v.info0 v.info1 := by
  simp only [State.enterFault, State.respond, faulted, response_eq_rsp]

/-- The state word as a number (R24). -/
theorem stateWord_eq (p : Slot) : stateWord p = BitVec.ofNat 32 (p.p1.toNat * 2 ^ 16 + p.p0.toNat) := by
  apply BitVec.eq_of_toNat_eq
  have h0 := p.p0.isLt
  have h1 := p.p1.isLt
  simp only [stateWord, toNat_append_add, BitVec.toNat_ofNat]
  omega

/-- A set word as a number (R28). -/
theorem wordOfSet_eq (c : ContextSet) : wordOfSet c = BitVec.ofNat 32 (c.size.toNat * 2 ^ 16 + c.offset.toNat) := by
  apply BitVec.eq_of_toNat_eq
  have h0 := c.offset.isLt
  have h1 := c.size.isLt
  simp only [wordOfSet, toNat_append_add, BitVec.toNat_ofNat]
  omega

/-- The offset of a set word (R28). -/
theorem setOfWord_offset (w : Word) : (setOfWord w).offset.toNat = w.toNat % 2 ^ 16 := by
  simp [setOfWord, BitVec.extractLsb'_toNat]

/-- The size of a set word (R28). -/
theorem setOfWord_size (w : Word) : (setOfWord w).size.toNat = w.toNat / 2 ^ 16 := by
  have := w.isLt
  simp only [setOfWord, BitVec.extractLsb'_toNat, Nat.shiftRight_eq_div_pow]
  omega

/-- The sum of the two estimates does not wrap (R27). -/
theorem slotSum_toNat (p : Slot) : (slotSum p).toNat = p.p0.toNat + p.p1.toNat := by
  have h0 := p.p0.isLt
  have h1 := p.p1.isLt
  simp only [slotSum, BitVec.toNat_add, BitVec.toNat_setWidth]
  omega

/-- The quantisation is the sum shifted right by 8 (R27). -/
theorem slotQ8_toNat (p : Slot) : (slotQ8 p).toNat = (p.p0.toNat + p.p1.toNat) / 2 ^ 8 := by
  have h0 := p.p0.isLt
  have h1 := p.p1.isLt
  simp only [slotQ8, BitVec.extractLsb'_toNat, slotSum_toNat, Nat.shiftRight_eq_div_pow]
  omega

/-- The query word as a number (R116). -/
theorem queryWord_eq (p : Slot) : queryWord p = BitVec.ofNat 32
    (p.w.toNat * 2 ^ 24 + (p.p0.toNat + p.p1.toNat) / 2 ^ 8 * 2 ^ 16 + (p.p0.toNat + p.p1.toNat)) := by
  apply BitVec.eq_of_toNat_eq
  have h0 := p.p0.isLt
  have h1 := p.p1.isLt
  have hw := p.w.isLt
  simp only [queryWord, toNat_append_add, BitVec.toNat_ofNat, slotSum_toNat, slotQ8_toNat]
  omega

end Sys2Proof.Machine
end

