-- ==== Sys2Proof/Laws/Ops.lean ====
section
/-! SUPPORT. One lemma per shared operation: what each check does when it passes, and all that it can do. -/

namespace Sys2Proof.Machine

open Sys2Proof

variable {s t : State} {b : BankNo} {off sub k : Half}

/-! ### Checks that pass -/

theorem whenRunning_running (h : s.halt = false) (r : Result) : whenRunning s r = r := by simp [whenRunning, h]

theorem withBankNo_of_get {o : Option Bank} (h : s.banks[b.toNat]? = some o) (f : Option Bank → Result) :
    withBankNo s b f = f o := by simp [withBankNo, h]

theorem withBank_of_bankAt {bank : Bank} (hr : s.halt = false) (h : s.bankAt b.toNat = some bank) (f : Bank → Result) :
    withBank s b f = f bank := by
  rw [withBank, whenRunning_running hr, withBankNo_of_get (bankAt_eq_some.mp h)]; rfl

theorem withSlot_of_slotAt {bank : Bank} {p : Slot} (hr : s.halt = false) (h : s.bankAt b.toNat = some bank)
    (hp : bank.slots[off.toNat + sub.toNat]? = some p) (f : Bank → Slot → Result) : withSlot s b off sub f = f bank p := by
  rw [withSlot, withBank_of_bankAt hr h]; simp [slotIndex, hp]

theorem withStat_of_get {bank : Bank} {v : Word} (hr : s.halt = false) (h : s.bankAt b.toNat = some bank)
    (hv : bank.gr[k.toNat]? = some v) (f : Bank → Word → Result) : withStat s b k f = f bank v := by
  rw [withStat, withBank_of_bankAt hr h]; simp [hv]

theorem withSize_of_eq {bank : Bank} {n : Nat} (hr : s.halt = false) (h : s.bankAt b.toNat = some bank)
    (hn : n = s.cfg.nctx) (f : Bank → Result) : withSize s b n f = f bank := by
  rw [withSize, withBank_of_bankAt hr h]; simp [hn]

/-! ### Checks that fail -/

theorem withBank_badBank (hr : s.halt = false) (h : s.banks.length ≤ b.toNat) (f : Bank → Result) :
    withBank s b f = raise s (.badBank b s.cfg.nbank) := by
  rw [withBank, whenRunning_running hr, withBankNo, List.getElem?_eq_none h]

theorem withBank_dummy (hr : s.halt = false) (h : b.toNat < s.banks.length) (hl : s.liveAt b.toNat = false)
    (f : Bank → Result) : withBank s b f = raise s (.dummyContext b) := by
  have hg : s.banks[b.toNat]? = some none := by
    have hb : s.bankAt b.toNat = none := by simpa [State.liveAt] using hl
    rw [List.getElem?_eq_getElem h]
    simpa [State.bankAt, List.getElem?_eq_getElem h] using hb
  rw [withBank, whenRunning_running hr, withBankNo_of_get hg]; rfl

/-! ### All that each check can do -/

/-- A command that is answered without its own pseudocode running: refused because halted, or a violation raised. -/
def Stopped (s t : State) : Prop :=
  s.halt = true ∧ t = s.respond 0xFF (s.fcode.setWidth 32) [] ∨ s.halt = false ∧ ∃ v, t = s.enterFault v

theorem raise_next {v : Violation} (hr : s.halt = false) (h : raise s v = .next t) : Stopped s t := by
  cases h; exact .inr ⟨hr, v, rfl⟩

theorem whenRunning_next {r : Result} (h : whenRunning s r = .next t) : Stopped s t ∨ s.halt = false ∧ r = .next t := by
  unfold whenRunning at h
  cases hh : s.halt with
  | true => rw [if_pos hh] at h; cases h; exact .inl (.inl ⟨hh, rfl⟩)
  | false => rw [if_neg (by simp [hh])] at h; exact .inr ⟨rfl, h⟩

theorem withBankNo_next {f : Option Bank → Result} (hr : s.halt = false) (h : withBankNo s b f = .next t) :
    Stopped s t ∨ ∃ o, s.banks[b.toNat]? = some o ∧ f o = .next t := by
  unfold withBankNo at h
  split at h
  · exact .inl (raise_next hr h)
  · exact .inr ⟨_, ‹_›, h⟩

theorem withLive_next {o : Option Bank} {f : Bank → Result} (hr : s.halt = false) (h : withLive s b o f = .next t) :
    Stopped s t ∨ ∃ bank, o = some bank ∧ f bank = .next t := by
  unfold withLive at h
  split at h
  · exact .inl (raise_next hr h)
  · exact .inr ⟨_, rfl, h⟩

theorem withBank_next {f : Bank → Result} (h : withBank s b f = .next t) :
    Stopped s t ∨ s.halt = false ∧ ∃ bank, s.bankAt b.toNat = some bank ∧ f bank = .next t := by
  rcases whenRunning_next h with hs | ⟨hr, h⟩
  · exact .inl hs
  rcases withBankNo_next hr h with hs | ⟨o, ho, h⟩
  · exact .inl hs
  rcases withLive_next hr h with hs | ⟨bank, rfl, h⟩
  · exact .inl hs
  exact .inr ⟨hr, bank, bankAt_eq_some.mpr ho, h⟩

theorem withSlot_next {f : Bank → Slot → Result} (h : withSlot s b off sub f = .next t) :
    Stopped s t ∨ s.halt = false ∧ ∃ bank p, s.bankAt b.toNat = some bank ∧
      bank.slots[slotIndex off sub]? = some p ∧ f bank p = .next t := by
  rcases withBank_next h with hs | ⟨hr, bank, hb, h⟩
  · exact .inl hs
  split at h
  · exact .inl (raise_next hr h)
  · exact .inr ⟨hr, bank, _, hb, ‹_›, h⟩

theorem withStat_next {f : Bank → Word → Result} (h : withStat s b k f = .next t) :
    Stopped s t ∨ s.halt = false ∧ ∃ bank v, s.bankAt b.toNat = some bank ∧
      bank.gr[k.toNat]? = some v ∧ f bank v = .next t := by
  rcases withBank_next h with hs | ⟨hr, bank, hb, h⟩
  · exact .inl hs
  split at h
  · exact .inl (raise_next hr h)
  · exact .inr ⟨hr, bank, _, hb, ‹_›, h⟩

theorem withSize_next {n : Nat} {f : Bank → Result} (h : withSize s b n f = .next t) :
    Stopped s t ∨ s.halt = false ∧ ∃ bank, s.bankAt b.toNat = some bank ∧ n = s.cfg.nctx ∧ f bank = .next t := by
  rcases withBank_next h with hs | ⟨hr, bank, hb, h⟩
  · exact .inl hs
  split at h
  · exact .inr ⟨hr, bank, hb, ‹_›, h⟩
  · exact .inl (raise_next hr h)

end Sys2Proof.Machine
end

