-- ==== Sys2Proof/Laws/Exec.lean ====
section
/-! SUPPORT. All that executing one instruction can do, said once: it stops, or only answers, or writes one bank whose
slots come from where the rules take them. -/

namespace Sys2Proof.Machine

open Sys2Proof

/-- The commands that may put a slot outside the range invariant (R36): `BNEW`, `PSET`, `BLD`. -/
def storesRaw : Instr → Bool
  | .pset _ _ _ _ => true
  | .bnew _ => true
  | .bld _ _ => true
  | _ => false

/-- Where a slot that a command leaves in the bank it writes comes from. -/
inductive SlotOrigin (s : State) : Instr → Slot → Prop
  /-- It is a slot of the state before. -/
  | kept {i : Instr} {n j : Nat} {x : Slot} (h : s.slotAt n j = some x) : SlotOrigin s i x
  /-- `BNEW`: zeroed. -/
  | zeroed (b : BankNo) : SlotOrigin s (.bnew b) zeroSlot
  /-- `PINIT`: a slot of the state before, seeded. -/
  | seeded (b : BankNo) (off sub : Half) (qp seed : Byte) {n j : Nat} {x : Slot} (h : s.slotAt n j = some x) :
      SlotOrigin s (.pinit b off sub qp seed) (seedSlot s.cfg qp seed x)
  /-- `PRATE`, `BWIN`: a slot of the state before with a valid rate. -/
  | rated {i : Instr} {n j : Nat} {x : Slot} {r : Byte} (hi : storesRaw i = false) (h : s.slotAt n j = some x)
      (hr : validRate s.cfg r = true) : SlotOrigin s i { x with w := r }
  /-- `PUPD`: a slot of the state before, updated. -/
  | updated (b : BankNo) (off sub : Half) (bin : Bool) {n j : Nat} {x : Slot} {pair : RatePair}
      (h : s.slotAt n j = some x) (hp : ratePair s.cfg x.w = some pair) :
      SlotOrigin s (.pupd b off sub bin) (updateSlot s.cfg pair bin x)
  /-- `PSET`, `BLD`: a slot of the state before with a word stored. -/
  | stored {i : Instr} {n j : Nat} {x : Slot} (w : Word) (hi : storesRaw i = true) (h : s.slotAt n j = some x) :
      SlotOrigin s i (storeWord s.cfg w x)
  /-- `BINIT`: the slot of a ROM column whose rate is valid. -/
  | rom (b : BankNo) (qp initId : Byte) (row : RomRow) {e : ContextEntry} (he : e ∈ s.cfg.initRom)
      (hr : validRate s.cfg e.rate = true) : SlotOrigin s (.binit b qp initId) (romSlot s.cfg qp row e)

/-- What a command may leave in the bank it writes. -/
def BankOrigin (s : State) (i : Instr) (o : Option Bank) : Prop :=
  ∀ bank, o = some bank → (∀ x ∈ bank.slots, SlotOrigin s i x) ∧
    (s.Shape → bank.slots.length = s.cfg.nctx ∧ bank.gr.length = s.cfg.ngr)

/-- The command only answered. -/
def OnlyAnswered (i : Instr) (s t : State) : Prop :=
  ∃ data out, t = s.respond 0 data out ∧ (out = [] ∨ ∃ b len, i = .bsv b len)

/-- The command wrote the bank it names and answered `RSP(OK, 0)`. -/
def WroteBank (i : Instr) (s t : State) : Prop :=
  s.halt = false ∧ ∃ d o, writtenBank i = some d ∧ d.toNat < s.banks.length ∧ BankOrigin s i o ∧
    t = (s.putBank d o).respond 0 0 []

variable {s t : State}

/-- The slots of a live bank are slots of the state. -/
theorem mem_slots_kept {n : Nat} {bank : Bank} (h : s.bankAt n = some bank) {x : Slot} (hx : x ∈ bank.slots) :
    ∃ j, s.slotAt n j = some x := by
  obtain ⟨j, hj⟩ := List.getElem?_of_mem hx
  exact ⟨j, by rw [slotAt_eq h, hj]⟩

/-- Writing one slot. -/
theorem wrote_putSlot {i : Instr} {b : BankNo} {off sub : Half} {bank : Bank} {q : Slot} (hr : s.halt = false)
    (hb : s.bankAt b.toNat = some bank) (hi : writtenBank i = some b) (hq : SlotOrigin s i q)
    (h : done (s.putSlot b bank off sub q) = .next t) : WroteBank i s t := by
  cases h
  refine ⟨hr, b, some { bank with slots := bank.slots.set (slotIndex off sub) q }, hi, bankAt_lt hb, ?_, rfl⟩
  rintro _ ⟨⟩
  refine ⟨fun x hx => ?_, fun hs => ⟨by simpa using hs.slots hb, by simpa using hs.stats hb⟩⟩
  rcases List.mem_or_eq_of_mem_set hx with hx | rfl
  · obtain ⟨j, hj⟩ := mem_slots_kept hb hx
    exact .kept hj
  · exact hq

/-- Writing all slots. -/
theorem wrote_putSlots {i : Instr} {b : BankNo} {bank : Bank} {slots : List Slot} (hr : s.halt = false)
    (hb : s.bankAt b.toNat = some bank) (hi : writtenBank i = some b) (hq : ∀ x ∈ slots, SlotOrigin s i x)
    (hl : s.Shape → slots.length = s.cfg.nctx) (h : done (s.putSlots b bank slots) = .next t) : WroteBank i s t := by
  cases h
  refine ⟨hr, b, some { bank with slots := slots }, hi, bankAt_lt hb, ?_, rfl⟩
  rintro _ ⟨⟩
  exact ⟨hq, fun hs => ⟨hl hs, by simpa using hs.stats hb⟩⟩

/-- A list without a first bad rate has only valid rates. -/
theorem valid_of_firstBadRate {c : Config} {rs : List Byte} {n : Nat} (h : firstBadRate c n rs = none) :
    ∀ r ∈ rs, validRate c r = true := by
  induction rs generalizing n with
  | nil => simp
  | cons r rs ih =>
    unfold firstBadRate at h
    split at h
    · simpa [‹validRate c r = true›] using ih h
    · cases h

/-- The slots of `copyRange` come from its two arguments. -/
theorem mem_copyRange {off size : Nat} {ds ss : List Slot} {x : Slot} (h : x ∈ copyRange off size ds ss) :
    x ∈ ds ∨ x ∈ ss := by
  simp only [copyRange, List.mem_append] at h
  rcases h with (h | h) | h
  · exact .inl (List.mem_of_mem_take h)
  · exact .inr (List.mem_of_mem_drop (List.mem_of_mem_take h))
  · exact .inl (List.mem_of_mem_drop h)

theorem copyRange_length {off size : Nat} {ds ss : List Slot} (h : off + size ≤ ds.length) (hl : ss.length = ds.length) :
    (copyRange off size ds ss).length = ds.length := by
  simp only [copyRange, List.length_append, List.length_take, List.length_drop]
  omega

/-- All that executing an instruction can do. -/
theorem exec_next {i : Instr} (h : exec i s = .next t) : Stopped s t ∨ OnlyAnswered i s t ∨ WroteBank i s t := by
  cases i with
  | pinit b off sub qp seed =>
    rcases withSlot_next h with hs | ⟨hr, bank, p, hb, hp, h⟩
    · exact .inl hs
    · exact .inr (.inr (wrote_putSlot hr hb rfl (.seeded _ _ _ _ _ ((slotAt_eq hb _).trans hp)) h))
  | prate b off sub rate =>
    rcases withSlot_next h with hs | ⟨hr, bank, p, hb, hp, h⟩
    · exact .inl hs
    split at h
    · exact .inr (.inr (wrote_putSlot hr hb rfl (.rated rfl ((slotAt_eq hb _).trans hp) ‹_›) h))
    · exact .inl (raise_next hr h)
  | pupd b off sub bin =>
    rcases withSlot_next h with hs | ⟨hr, bank, p, hb, hp, h⟩
    · exact .inl hs
    split at h
    · exact .inl (raise_next hr h)
    · exact .inr (.inr (wrote_putSlot hr hb rfl (.updated _ _ _ _ ((slotAt_eq hb _).trans hp) ‹_›) h))
  | pget b off sub =>
    rcases withSlot_next h with hs | ⟨hr, bank, p, hb, hp, h⟩
    · exact .inl hs
    · cases h; exact .inr (.inl ⟨_, _, rfl, .inl rfl⟩)
  | pset b off sub word =>
    rcases withSlot_next h with hs | ⟨hr, bank, p, hb, hp, h⟩
    · exact .inl hs
    · exact .inr (.inr (wrote_putSlot hr hb rfl (.stored _ rfl ((slotAt_eq hb _).trans hp)) h))
  | pest b off sub bin =>
    rcases withSlot_next h with hs | ⟨hr, bank, p, hb, hp, h⟩
    · exact .inl hs
    · cases h; exact .inr (.inl ⟨_, _, rfl, .inl rfl⟩)
  | pqry b off sub =>
    rcases withSlot_next h with hs | ⟨hr, bank, p, hb, hp, h⟩
    · exact .inl hs
    · cases h; exact .inr (.inl ⟨_, _, rfl, .inl rfl⟩)
  | tget off sub initId =>
    rcases whenRunning_next h with hs | ⟨hr, h⟩
    · exact .inl hs
    split at h
    · exact .inl (raise_next hr h)
    split at h
    · exact .inl (raise_next hr h)
    · cases h; exact .inr (.inl ⟨_, _, rfl, .inl rfl⟩)
  | tcnt =>
    rcases whenRunning_next h with hs | ⟨hr, h⟩
    · exact .inl hs
    · cases h; exact .inr (.inl ⟨_, _, rfl, .inl rfl⟩)
  | tgrp g =>
    rcases whenRunning_next h with hs | ⟨hr, h⟩
    · exact .inl hs
    split at h
    · exact .inl (raise_next hr h)
    · cases h; exact .inr (.inl ⟨_, _, rfl, .inl rfl⟩)
  | smrg sets =>
    rcases whenRunning_next h with hs | ⟨hr, h⟩
    · exact .inl hs
    split at h
    · exact .inl (raise_next hr h)
    split at h
    · exact .inl (raise_next hr h)
    · cases h; exact .inr (.inl ⟨_, _, rfl, .inl rfl⟩)
  | bnew b =>
    rcases whenRunning_next h with hs | ⟨hr, h⟩
    · exact .inl hs
    rcases withBankNo_next hr h with hs | ⟨o, ho, h⟩
    · exact .inl hs
    cases h
    refine .inr (.inr ⟨hr, b, _, rfl, (List.getElem?_eq_some_iff.mp ho).1, ?_, rfl⟩)
    rintro _ ⟨⟩
    refine ⟨fun x hx => ?_, fun _ => by simp [freshBank]⟩
    rw [(List.mem_replicate.mp hx).2]
    exact .zeroed b
  | bfree b =>
    rcases whenRunning_next h with hs | ⟨hr, h⟩
    · exact .inl hs
    rcases withBankNo_next hr h with hs | ⟨o, ho, h⟩
    · exact .inl hs
    cases h
    exact .inr (.inr ⟨hr, b, none, rfl, (List.getElem?_eq_some_iff.mp ho).1, nofun, rfl⟩)
  | binit b qp initId =>
    rcases withBank_next h with hs | ⟨hr, bank, hb, h⟩
    · exact .inl hs
    split at h
    · exact .inl (raise_next hr h)
    split at h
    · exact .inl (raise_next hr h)
    · rename_i row _ _ hv
      refine .inr (.inr (wrote_putSlots hr hb rfl (fun x hx => ?_) (fun _ => by simp [Config.nctx]) h))
      obtain ⟨e, he, rfl⟩ := List.mem_map.mp hx
      exact .rom b qp initId row he (valid_of_firstBadRate hv _ (List.mem_map_of_mem he))
  | bcpy dst src =>
    rcases whenRunning_next h with hs | ⟨hr, h⟩
    · exact .inl hs
    rcases withBankNo_next hr h with hs | ⟨o, ho, h⟩
    · exact .inl hs
    rcases withBankNo_next hr h with hs | ⟨p, hp, h⟩
    · exact .inl hs
    split at h
    · cases h; exact .inr (.inl ⟨_, _, rfl, .inl rfl⟩)
    · cases h
      refine .inr (.inr ⟨hr, dst, p, rfl, (List.getElem?_eq_some_iff.mp ho).1, ?_, rfl⟩)
      rintro bank rfl
      have hb : s.bankAt src.toNat = some bank := bankAt_eq_some.mpr hp
      refine ⟨fun x hx => ?_, fun hs => ⟨hs.slots hb, hs.stats hb⟩⟩
      obtain ⟨j, hj⟩ := mem_slots_kept hb hx
      exact .kept hj
  | bcpr dst src off size =>
    rcases whenRunning_next h with hs | ⟨hr, h⟩
    · exact .inl hs
    rcases withBankNo_next hr h with hs | ⟨o, ho, h⟩
    · exact .inl hs
    rcases withBankNo_next hr h with hs | ⟨p, hp, h⟩
    · exact .inl hs
    rcases withLive_next (o := o) hr h with hs | ⟨bd, rfl, h⟩
    · exact .inl hs
    rcases withLive_next (o := p) hr h with hs | ⟨bs, rfl, h⟩
    · exact .inl hs
    have hd := bankAt_eq_some.mpr ho
    have hsrc := bankAt_eq_some.mpr hp
    split at h
    · rename_i hle
      split at h
      · cases h; exact .inr (.inl ⟨_, _, rfl, .inl rfl⟩)
      · refine .inr (.inr (wrote_putSlots hr hd rfl (fun x hx => ?_) (fun hs => ?_) h))
        · rcases mem_copyRange hx with hx | hx
          · obtain ⟨j, hj⟩ := mem_slots_kept hd hx
            exact .kept hj
          · obtain ⟨j, hj⟩ := mem_slots_kept hsrc hx
            exact .kept hj
        · rw [copyRange_length, hs.slots hd]
          · rw [hs.slots hd]; exact hle
          · rw [hs.slots hd, hs.slots hsrc]
    · exact .inl (raise_next hr h)
  | bwin b rates =>
    rcases withSize_next h with hs | ⟨hr, bank, hb, hn, h⟩
    · exact .inl hs
    split at h
    · exact .inl (raise_next hr h)
    · rename_i hv
      refine .inr (.inr (wrote_putSlots hr hb rfl (fun x hx => ?_) (fun hs => ?_) h))
      · rw [← List.map_uncurry_zip_eq_zipWith] at hx
        obtain ⟨⟨v, p⟩, hm, rfl⟩ := List.mem_map.mp hx
        obtain ⟨j, hj⟩ := mem_slots_kept hb (List.of_mem_zip hm).2
        exact .rated rfl hj (valid_of_firstBadRate hv _ (List.mem_map_of_mem (List.of_mem_zip hm).1))
      · simp [hn, hs.slots hb]
  | bld b words =>
    rcases withSize_next h with hs | ⟨hr, bank, hb, hn, h⟩
    · exact .inl hs
    refine .inr (.inr (wrote_putSlots hr hb rfl (fun x hx => ?_) (fun hs => ?_) h))
    · rw [← List.map_uncurry_zip_eq_zipWith] at hx
      obtain ⟨⟨w, p⟩, hm, rfl⟩ := List.mem_map.mp hx
      obtain ⟨j, hj⟩ := mem_slots_kept hb (List.of_mem_zip hm).2
      exact .stored w rfl hj
    · simp [hn, hs.slots hb]
  | bsv b len =>
    rcases withSize_next h with hs | ⟨hr, bank, hb, hn, h⟩
    · exact .inl hs
    · cases h; exact .inr (.inl ⟨_, _, rfl, .inr ⟨b, len, rfl⟩⟩)
  | grrd b k =>
    rcases withStat_next h with hs | ⟨hr, bank, v, hb, hv, h⟩
    · exact .inl hs
    · cases h; exact .inr (.inl ⟨_, _, rfl, .inl rfl⟩)
  | grwr b k value =>
    rcases withStat_next h with hs | ⟨hr, bank, v, hb, hv, h⟩
    · exact .inl hs
    cases h
    refine .inr (.inr ⟨hr, b, some { bank with gr := bank.gr.set k.toNat value }, rfl, bankAt_lt hb, ?_, rfl⟩)
    rintro _ ⟨⟩
    refine ⟨fun x hx => ?_, fun hs => ⟨by simpa using hs.slots hb, by simpa using hs.stats hb⟩⟩
    obtain ⟨j, hj⟩ := mem_slots_kept hb hx
    exact .kept hj
  | rnm w =>
    rcases whenRunning_next h with hs | ⟨hr, h⟩
    · exact .inl hs
    · cases h; exact .inr (.inl ⟨_, _, rfl, .inl rfl⟩)
  | rdsr n =>
    change execRdsr n s = .next t at h
    unfold execRdsr at h
    split at h
    · cases h; exact .inr (.inl ⟨_, _, rfl, .inl rfl⟩)
    · rcases whenRunning_next h with hs | ⟨hr, h⟩
      · exact .inl hs
      · exact .inl (raise_next hr h)

/-! ### What each outcome leaves -/

theorem Stopped.banks_eq (h : Stopped s t) : t.banks = s.banks := by
  rcases h with ⟨_, rfl⟩ | ⟨_, v, rfl⟩ <;> rfl

theorem Stopped.cfg_eq (h : Stopped s t) : t.cfg = s.cfg := by
  rcases h with ⟨_, rfl⟩ | ⟨_, v, rfl⟩ <;> rfl

/-- A command that stops leaves the PME halted. -/
theorem Stopped.halted (h : Stopped s t) : t.halt = true := by
  rcases h with ⟨h, rfl⟩ | ⟨_, v, rfl⟩
  · exact h
  · rfl

theorem OnlyAnswered.banks_eq {i : Instr} (h : OnlyAnswered i s t) : t.banks = s.banks := by
  obtain ⟨_, _, rfl, _⟩ := h; rfl

theorem OnlyAnswered.cfg_eq {i : Instr} (h : OnlyAnswered i s t) : t.cfg = s.cfg := by
  obtain ⟨_, _, rfl, _⟩ := h; rfl

theorem WroteBank.cfg_eq {i : Instr} (h : WroteBank i s t) : t.cfg = s.cfg := by
  obtain ⟨_, _, _, _, _, _, rfl⟩ := h; rfl

/-- Every slot that is there after a write comes from where `SlotOrigin` says. -/
theorem WroteBank.slot_origin {i : Instr} (h : WroteBank i s t) {b j : Nat} {x : Slot} (hx : t.slotAt b j = some x) :
    SlotOrigin s i x := by
  obtain ⟨_, d, o, _, hd, ho, rfl⟩ := h
  rw [slotAt_respond] at hx
  by_cases hb : b = d.toNat
  · subst hb
    obtain ⟨bank, h1, h2⟩ := slotAt_eq_some hx
    rw [bankAt_putBank_self _ _ hd] at h1
    exact (ho _ h1).1 _ (List.mem_of_getElem? h2)
  · exact .kept (n := b) (j := j) (by rw [← hx, State.slotAt, State.slotAt, bankAt_putBank_ne _ _ hb])

/-- The codes of R211 are 0x01 to 0x0A. -/
theorem Violation.code_range (v : Violation) : 1 ≤ v.code.toNat ∧ v.code.toNat ≤ 10 := by
  cases v <;> simp [Violation.code]

end Sys2Proof.Machine
end

