-- ==== Sys2Proof/Laws/Frames.lean ====
section
/-! SUPPORT. What writing a bank, a slot or a statistics word leaves unchanged. -/

namespace Sys2Proof.Machine

open Sys2Proof

variable {s : State} {b : BankNo}

/-- Writing a bank and answering touches nothing but that bank and the responses. -/
theorem completesOnBank_putBank (o : Option Bank) : CompletesOnBank s ((s.putBank b o).respond 0 0 []) b.toNat := by
  refine ⟨by simp [response_eq_rsp], ⟨rfl, rfl, rfl, rfl⟩, ⟨rfl, rfl, rfl⟩, by simp, fun n hn => ?_⟩
  rw [bankAt_respond, bankAt_putBank_ne _ _ hn]

/-- The bank written, after answering. -/
theorem bankAt_written (h : b.toNat < s.banks.length) (o : Option Bank) :
    ((s.putBank b o).respond 0 0 []).bankAt b.toNat = o := by
  rw [bankAt_respond, bankAt_putBank_self _ _ h]

/-- Writing one slot touches nothing but that slot and the responses. -/
theorem completesOnSlot_putSlot {bank : Bank} {off sub : Half} {p : Slot} (hb : s.bankAt b.toNat = some bank)
    (hp : bank.slots[off.toNat + sub.toNat]? = some p) (q : Slot) :
    CompletesOnSlot s ((s.putSlot b bank off sub q).respond 0 0 []) b.toNat (off.toNat + sub.toNat) q := by
  have hw := bankAt_written (bankAt_lt hb) (some { bank with slots := bank.slots.set (slotIndex off sub) q })
  change ((s.putSlot b bank off sub q).respond 0 0 []).bankAt b.toNat = _ at hw
  refine ⟨?_, completesOnBank_putBank _, ?_, fun i hi => ?_, fun k => ?_⟩
  · rw [slotAt_eq hw]
    simp [slotIndex, (List.getElem?_eq_some_iff.mp hp).1]
  · rw [State.liveAt, State.liveAt, hw, hb]; rfl
  · rw [slotAt_eq hw, slotAt_eq hb]
    simp [slotIndex, Ne.symm hi]
  · rw [statAt_eq hw, statAt_eq hb]

/-- Answering alone is what `answered` says. -/
theorem finish_eq (data : Word) (out : List Word) : finish s data out = .next (answered s 0 data out) := by
  rw [finish, respond_eq_answered]

/-- Raising is what `faulted` says. -/
theorem raise_eq (v : Violation) : raise s v = .next (faulted s v.code v.info0 v.info1) := by
  rw [raise, enterFault_eq_faulted]

end Sys2Proof.Machine
end

