-- ==== Sys2Proof/Laws/Masks.lean ====
section
/-! SUPPORT. The precision masks (00_scope.md R6): which bits they keep, and fields that are zero outside them. -/

namespace Sys2Proof.Machine

open Sys2Proof

/-- The mask keeps the `prec` most significant of 15 bits. -/
theorem fieldMask_getLsbD (prec i : Nat) : (fieldMask prec).getLsbD i = decide (15 - prec ≤ i ∧ i < 15) := by
  simp only [fieldMask, BitVec.getLsbD_ofNat, Nat.testBit_shiftLeft, Nat.testBit_two_pow_sub_one]
  rcases Nat.lt_or_ge i 15 with h1 | h1
  · rcases Nat.lt_or_ge i (15 - prec) with h2 | h2
    · simp [h1, Nat.not_le.mpr h2]
    · simp [h1, h2]; omega
  · simp [Nat.not_lt.mpr h1]

/-- A field zero outside its mask is a multiple of the weight of the mask's lowest bit. -/
theorem outside_mask_zero_iff (p : Estimate) (prec : Nat) :
    p &&& ~~~fieldMask prec = 0 ↔ p.toNat % 2 ^ (15 - prec) = 0 := by
  constructor
  · intro h
    apply Nat.eq_of_testBit_eq
    intro i
    have hi := congrArg (fun v : Estimate => v.getLsbD i) h
    simp only [BitVec.getLsbD_and, BitVec.getLsbD_not, fieldMask_getLsbD] at hi
    rw [Nat.testBit_mod_two_pow, BitVec.testBit_toNat]
    by_cases hl : i < 15 - prec
    · have : i < 15 := by omega
      simpa [hl, this, Nat.not_le.mpr hl] using hi
    · simp [hl]
  · intro h
    apply BitVec.eq_of_getLsbD_eq
    intro i hi
    simp only [BitVec.getLsbD_and, BitVec.getLsbD_not, fieldMask_getLsbD]
    by_cases hl : i < 15 - prec
    · have hb := congrArg (fun n : Nat => n.testBit i) h
      simp only [Nat.testBit_mod_two_pow, BitVec.testBit_toNat] at hb
      simpa [hl, hi, Nat.not_le.mpr hl] using hb
    · simp [hi, Nat.not_lt.mp hl]

/-- What has been masked is zero outside the mask. -/
theorem masked_outside_zero (p m : Estimate) : (p &&& m) &&& ~~~m = 0 := by
  rw [BitVec.and_assoc]; simp

/-- Masking a field that is zero outside its mask changes nothing. -/
theorem and_mask_of_outside_zero {p m : Estimate} (h : p &&& ~~~m = 0) : p &&& m = p := by
  apply BitVec.eq_of_getLsbD_eq
  intro i hi
  have hb := congrArg (fun v : Estimate => v.getLsbD i) h
  simp only [BitVec.getLsbD_and, BitVec.getLsbD_not, hi] at hb ⊢
  cases h1 : p.getLsbD i <;> simp_all

/-- At full precision the mask keeps every bit. -/
theorem and_fieldMask_15 (p : Estimate) : p &&& fieldMask 15 = p := by
  have h : fieldMask 15 = BitVec.allOnes 15 := by decide
  rw [h, BitVec.and_allOnes]

end Sys2Proof.Machine
end

