-- ==== Sys2Proof/Laws/PerInstr.lean ====
section
/-! SUPPORT. Statements about every instruction, one lemma per constructor. -/

namespace Sys2Proof

/-- The opcode of an instruction. -/
def opcodeOf : Instr → Opcode
  | .pinit _ _ _ _ _ => .pinit
  | .prate _ _ _ _ => .prate
  | .pupd _ _ _ _ => .pupd
  | .pget _ _ _ => .pget
  | .pset _ _ _ _ => .pset
  | .pest _ _ _ _ => .pest
  | .pqry _ _ _ => .pqry
  | .tget _ _ _ => .tget
  | .tcnt => .tcnt
  | .tgrp _ => .tgrp
  | .smrg _ => .smrg
  | .bnew _ => .bnew
  | .bfree _ => .bfree
  | .binit _ _ _ => .binit
  | .bcpy _ _ => .bcpy
  | .bcpr _ _ _ _ => .bcpr
  | .bwin _ _ => .bwin
  | .bld _ _ => .bld
  | .bsv _ _ => .bsv
  | .grrd _ _ => .grrd
  | .grwr _ _ _ => .grwr
  | .rnm _ => .rnm
  | .rdsr _ => .rdsr

namespace Laws.FitsItsRow

/-- The encoding of a well-formed instruction has its row's opcode byte, zero in every reserved field (R72, R77), and the
payload length that R73 asks for. -/
def Statement (i : Instr) : Prop := i.wellFormed = true →
  fieldOpc (encode i).cw = (opcodeOf i).code ∧ (encode i).cw &&& (opcodeOf i).reserved = 0 ∧
    (encode i).pl.length = (opcodeOf i).payloadLength (encode i).cw

/-- Zero fields leave nothing of the reserved bits. -/
theorem low_byte_reserved (v : Byte) : lowC v &&& 0xFF00#16 = 0 := by
  have h : (0xFF00#16) = 0xFF#8 ++ 0x00#8 := rfl
  rw [lowC, h, BitVec.and_append]; simp

theorem bin_reserved (v : Bool) : binC v &&& 0xFFFE#16 = 0 := by cases v <;> decide

theorem len_of_fits {l : List Word} (h : fitsLen l = true) : l.length = (lenField l).toNat := by
  have : l.length < 65536 := by simpa [fitsLen] using h
  simp [lenField, Nat.mod_eq_of_lt this]

/-- The lemmas' common shape: an opcode byte, five fields whose reserved bits are zero, and a payload length. -/
theorem of_fields {op : Opcode} {bd bs : BankNo} {a b c : Half} {pl : List Word}
    (h : bd &&& fieldBd op.reserved = 0 ∧ bs &&& fieldBs op.reserved = 0 ∧ a &&& fieldA op.reserved = 0 ∧
      b &&& fieldB op.reserved = 0 ∧ c &&& op.reserved.extractLsb' 0 16 = 0)
    (hl : pl.length = op.payloadLength (packWord op bd bs a b c)) :
    fieldOpc (packWord op bd bs a b c) = op.code ∧ packWord op bd bs a b c &&& op.reserved = 0 ∧
      pl.length = op.payloadLength (packWord op bd bs a b c) :=
  ⟨fieldOpc_pack .., (packed_reserved_iff ..).mpr h, hl⟩

variable (b d : BankNo) (off sub k : Half) (v x : Byte) (bin : Bool) (w : Word) (l : List Word)

theorem pinit : Statement (.pinit b off sub v x) := fun _ =>
  of_fields (by simp [Opcode.reserved, fieldBd, fieldBs, fieldA, fieldB]) rfl

theorem prate : Statement (.prate b off sub v) := fun _ =>
  of_fields (by simp [Opcode.reserved, fieldBd, fieldBs, fieldA, fieldB, low_byte_reserved]) rfl

theorem pupd : Statement (.pupd b off sub bin) := fun _ =>
  of_fields (by simp [Opcode.reserved, fieldBd, fieldBs, fieldA, fieldB, bin_reserved]) rfl

theorem pget : Statement (.pget b off sub) := fun _ =>
  of_fields (by simp [Opcode.reserved, fieldBd, fieldBs, fieldA, fieldB]) rfl

theorem pset : Statement (.pset b off sub w) := fun _ =>
  of_fields (by simp [Opcode.reserved, fieldBd, fieldBs, fieldA, fieldB]) rfl

theorem pest : Statement (.pest b off sub bin) := fun _ =>
  of_fields (by simp [Opcode.reserved, fieldBd, fieldBs, fieldA, fieldB, bin_reserved]) rfl

theorem pqry : Statement (.pqry b off sub) := fun _ =>
  of_fields (by simp [Opcode.reserved, fieldBd, fieldBs, fieldA, fieldB]) rfl

theorem tget : Statement (.tget off sub v) := fun _ =>
  of_fields (by simp [Opcode.reserved, fieldBd, fieldBs, fieldA, fieldB, low_byte_reserved]) rfl

theorem tcnt : Statement .tcnt := fun _ =>
  of_fields (by simp [Opcode.reserved, fieldBd, fieldBs, fieldA, fieldB]) rfl

theorem tgrp : Statement (.tgrp k) := fun _ =>
  of_fields (by simp [Opcode.reserved, fieldBd, fieldBs, fieldA, fieldB]) rfl

theorem smrg : Statement (.smrg l) := fun h =>
  of_fields (by simp [Opcode.reserved, fieldBd, fieldBs, fieldA, fieldB]) (by simpa [Opcode.payloadLength, encode] using len_of_fits h)

theorem bnew : Statement (.bnew b) := fun _ =>
  of_fields (by simp [Opcode.reserved, fieldBd, fieldBs, fieldA, fieldB]) rfl

theorem bfree : Statement (.bfree b) := fun _ =>
  of_fields (by simp [Opcode.reserved, fieldBd, fieldBs, fieldA, fieldB]) rfl

theorem binit : Statement (.binit b v x) := fun _ =>
  of_fields (by simp [Opcode.reserved, fieldBd, fieldBs, fieldA, fieldB]) rfl

theorem bcpy : Statement (.bcpy b d) := fun _ =>
  of_fields (by simp [Opcode.reserved, fieldBd, fieldBs, fieldA, fieldB]) rfl

theorem bcpr : Statement (.bcpr b d off sub) := fun _ =>
  of_fields (by simp [Opcode.reserved, fieldBd, fieldBs, fieldA, fieldB]) rfl

theorem bwin : Statement (.bwin b l) := fun h =>
  of_fields (by simp [Opcode.reserved, fieldBd, fieldBs, fieldA, fieldB]) (by simpa [Opcode.payloadLength, encode] using len_of_fits h)

theorem bld : Statement (.bld b l) := fun h =>
  of_fields (by simp [Opcode.reserved, fieldBd, fieldBs, fieldA, fieldB]) (by simpa [Opcode.payloadLength, encode] using len_of_fits h)

theorem bsv : Statement (.bsv b k) := fun _ =>
  of_fields (by simp [Opcode.reserved, fieldBd, fieldBs, fieldA, fieldB]) rfl

theorem grrd : Statement (.grrd b k) := fun _ =>
  of_fields (by simp [Opcode.reserved, fieldBd, fieldBs, fieldA, fieldB]) rfl

theorem grwr : Statement (.grwr b k w) := fun _ =>
  of_fields (by simp [Opcode.reserved, fieldBd, fieldBs, fieldA, fieldB]) rfl

theorem rnm : Statement (.rnm v) := fun _ =>
  of_fields (by simp [Opcode.reserved, fieldBd, fieldBs, fieldA, fieldB, low_byte_reserved]) rfl

theorem rdsr : Statement (.rdsr k) := fun _ =>
  of_fields (by simp [Opcode.reserved, fieldBd, fieldBs, fieldA, fieldB]) rfl

end Laws.FitsItsRow

/-- Every well-formed instruction's encoding fits its row. -/
theorem encode_fits (i : Instr) : Laws.FitsItsRow.Statement i := by
  cases i
  case pinit => exact Laws.FitsItsRow.pinit _ _ _ _ _
  case prate => exact Laws.FitsItsRow.prate _ _ _ _
  case pupd => exact Laws.FitsItsRow.pupd _ _ _ _
  case pget => exact Laws.FitsItsRow.pget _ _ _
  case pset => exact Laws.FitsItsRow.pset _ _ _ _
  case pest => exact Laws.FitsItsRow.pest _ _ _ _
  case pqry => exact Laws.FitsItsRow.pqry _ _ _
  case tget => exact Laws.FitsItsRow.tget _ _ _
  case tcnt => exact Laws.FitsItsRow.tcnt
  case tgrp => exact Laws.FitsItsRow.tgrp _
  case smrg => exact Laws.FitsItsRow.smrg _
  case bnew => exact Laws.FitsItsRow.bnew _
  case bfree => exact Laws.FitsItsRow.bfree _
  case binit => exact Laws.FitsItsRow.binit _ _ _
  case bcpy => exact Laws.FitsItsRow.bcpy _ _
  case bcpr => exact Laws.FitsItsRow.bcpr _ _ _ _
  case bwin => exact Laws.FitsItsRow.bwin _ _
  case bld => exact Laws.FitsItsRow.bld _ _
  case bsv => exact Laws.FitsItsRow.bsv _ _
  case grrd => exact Laws.FitsItsRow.grrd _ _
  case grwr => exact Laws.FitsItsRow.grwr _ _ _
  case rnm => exact Laws.FitsItsRow.rnm _
  case rdsr => exact Laws.FitsItsRow.rdsr _

end Sys2Proof
end

