-- ==== Sys2Proof/Laws/Slots.lean ====
section
/-! SUPPORT. All that executing one instruction can leave in one slot, slot by slot. -/

namespace Sys2Proof.Machine

open Sys2Proof

variable {s t : State} {b j : Nat} {y : Slot}

/-- What a command that did not stop leaves in slot `(b, j)`. -/
inductive SlotAfter (s : State) (b j : Nat) : Instr → Slot → Prop
  /-- What it held; the command neither seeds it nor copies into it. -/
  | kept {i : Instr} {y : Slot} (hs : seedsAt i b j = false) (hc : copiesFrom i b j = none) (h : s.slotAt b j = some y) :
      SlotAfter s b j i y
  /-- The same slot of the bank copied. -/
  | copied {i : Instr} {c : BankNo} {y : Slot} (hs : seedsAt i b j = false) (hc : copiesFrom i b j = some c)
      (h : s.slotAt c.toNat j = some y) : SlotAfter s b j i y
  /-- What it held, seeded. -/
  | seeded (n : BankNo) (off sub : Half) (qp seed : Byte) (x : Slot) :
      SlotAfter s b j (.pinit n off sub qp seed) (seedSlot s.cfg qp seed x)
  /-- The slot of a ROM column. -/
  | rom (n : BankNo) (qp initId : Byte) (row : RomRow) (e : ContextEntry) :
      SlotAfter s b j (.binit n qp initId) (romSlot s.cfg qp row e)
  /-- What it held, with another rate. -/
  | rated {i : Instr} {x : Slot} {r : Byte} (hs : seedsAt i b j = false) (hc : copiesFrom i b j = none)
      (h : s.slotAt b j = some x) : SlotAfter s b j i { x with w := r }
  /-- What it held, updated. -/
  | updated (n : BankNo) (off sub : Half) (bin : Bool) {x : Slot} {pair : RatePair} (h : s.slotAt b j = some x)
      (hp : ratePair s.cfg x.w = some pair) : SlotAfter s b j (.pupd n off sub bin) (updateSlot s.cfg pair bin x)
  /-- Raw state. -/
  | raw {i : Instr} {y : Slot} (hi : storesRawAt i b j = true) (hs : seedsAt i b j = false)
      (hc : copiesFrom i b j = none) : SlotAfter s b j i y

/-- A slot read after one slot was written. -/
theorem slotAt_after_putSlot {d : BankNo} {off sub : Half} {bank : Bank} {p q : Slot} (hb : s.bankAt d.toNat = some bank)
    (hp : bank.slots[slotIndex off sub]? = some p)
    (hy : ((s.putSlot d bank off sub q).respond 0 0 []).slotAt b j = some y) :
    (d.toNat = b ∧ off.toNat + sub.toNat = j ∧ y = q ∧ s.slotAt b j = some p) ∨
      (¬(d.toNat = b ∧ off.toNat + sub.toNat = j) ∧ s.slotAt b j = some y) := by
  obtain ⟨hw, hbank, -, hslots, -⟩ := completesOnSlot_putSlot hb hp q
  by_cases hd : d.toNat = b
  · subst hd
    by_cases hj : off.toNat + sub.toNat = j
    · subst hj
      rw [hw] at hy
      exact .inl ⟨rfl, rfl, (Option.some.inj hy).symm, (slotAt_eq hb _).trans hp⟩
    · exact .inr ⟨fun h => hj h.2, by rw [← hslots j (Ne.symm hj)]; exact hy⟩
  · have hk := hbank.2.2.2.2 b (Ne.symm hd)
    exact .inr ⟨fun h => hd h.1, by rw [← hy, State.slotAt, State.slotAt, hk]⟩

/-- A slot read after a bank was written. -/
theorem slotAt_after_putBank {d : BankNo} {o : Option Bank} (hd : d.toNat < s.banks.length)
    (hy : ((s.putBank d o).respond 0 0 []).slotAt b j = some y) :
    (d.toNat = b ∧ ∃ bank, o = some bank ∧ bank.slots[j]? = some y) ∨ (d.toNat ≠ b ∧ s.slotAt b j = some y) := by
  by_cases h : d.toNat = b
  · subst h
    obtain ⟨bank, hb, hg⟩ := slotAt_eq_some hy
    rw [bankAt_written hd] at hb
    exact .inl ⟨rfl, bank, hb, hg⟩
  · have hk : ((s.putBank d o).respond 0 0 []).bankAt b = s.bankAt b := by
      rw [bankAt_respond, bankAt_putBank_ne _ _ (Ne.symm h)]
    exact .inr ⟨h, by rw [← hy, State.slotAt, State.slotAt, hk]⟩

/-- One slot of `copyRange`, for lists of one length that hold the range. -/
theorem copyRange_getElem? {off size : Nat} {ds ss : List Slot} (h : off + size ≤ ds.length)
    (hl : ss.length = ds.length) (j : Nat) :
    (copyRange off size ds ss)[j]? = if off ≤ j ∧ j < off + size then ss[j]? else ds[j]? := by
  simp only [copyRange, List.getElem?_append, List.length_append, List.length_take, List.length_drop,
    List.getElem?_take, List.getElem?_drop]
  have h1 : min off ds.length = off := by omega
  have h2 : min size (ss.length - off) = size := by omega
  rw [h1, h2]
  by_cases ha : j < off
  · simp [ha, Nat.not_le.mpr ha, Nat.lt_add_right size ha]
  · by_cases hb : j < off + size
    · have hd : j - off < size := by omega
      have he : off + (j - off) = j := by omega
      simp [ha, hb, hd, he, Nat.not_lt.mp ha]
    · have he : off + size + (j - (off + size)) = j := by omega
      simp [hb, he]

/-- All that executing an instruction can leave in a slot. -/
theorem exec_slotAt {i : Instr} (hs : s.Shape) (h : exec i s = .next t) (hy : t.slotAt b j = some y) :
    Stopped s t ∨ SlotAfter s b j i y := by
  have hread : ∀ {i : Instr}, seedsAt i b j = false → copiesFrom i b j = none →
      (∃ data out, finish s data out = .next t) → SlotAfter s b j i y := by
    rintro i h1 h2 ⟨data, out, h⟩
    cases h
    exact .kept h1 h2 hy
  cases i with
  | pinit b' off sub qp seed =>
    rcases withSlot_next h with h | ⟨_, bank, p, hb, hp, h⟩
    · exact .inl h
    cases h
    rcases slotAt_after_putSlot hb hp hy with ⟨_, _, rfl, _⟩ | ⟨hn, hk⟩
    · exact .inr (.seeded _ _ _ _ _ _)
    · exact .inr (.kept (by simpa [seedsAt] using hn) rfl hk)
  | prate b' off sub rate =>
    rcases withSlot_next h with h | ⟨hr, bank, p, hb, hp, h⟩
    · exact .inl h
    split at h
    · cases h
      rcases slotAt_after_putSlot hb hp hy with ⟨_, _, rfl, hx⟩ | ⟨_, hk⟩
      · exact .inr (.rated rfl rfl hx)
      · exact .inr (.kept rfl rfl hk)
    · exact .inl (raise_next hr h)
  | pupd b' off sub bin =>
    rcases withSlot_next h with h | ⟨hr, bank, p, hb, hp, h⟩
    · exact .inl h
    split at h
    · exact .inl (raise_next hr h)
    · rename_i pair hpair
      cases h
      rcases slotAt_after_putSlot hb hp hy with ⟨_, _, rfl, hx⟩ | ⟨_, hk⟩
      · exact .inr (.updated _ _ _ _ hx hpair)
      · exact .inr (.kept rfl rfl hk)
  | pget b' off sub =>
    rcases withSlot_next h with h | ⟨_, bank, p, _, _, h⟩
    · exact .inl h
    · exact .inr (hread rfl rfl ⟨_, _, h⟩)
  | pset b' off sub word =>
    rcases withSlot_next h with h | ⟨_, bank, p, hb, hp, h⟩
    · exact .inl h
    cases h
    rcases slotAt_after_putSlot hb hp hy with ⟨hn, hj, _, _⟩ | ⟨_, hk⟩
    · exact .inr (.raw (by simp [storesRawAt, hn, hj]) rfl rfl)
    · exact .inr (.kept rfl rfl hk)
  | pest b' off sub bin =>
    rcases withSlot_next h with h | ⟨_, bank, p, _, _, h⟩
    · exact .inl h
    · exact .inr (hread rfl rfl ⟨_, _, h⟩)
  | pqry b' off sub =>
    rcases withSlot_next h with h | ⟨_, bank, p, _, _, h⟩
    · exact .inl h
    · exact .inr (hread rfl rfl ⟨_, _, h⟩)
  | bnew b' =>
    rcases whenRunning_next h with h | ⟨hr, h⟩
    · exact .inl h
    rcases withBankNo_next hr h with h | ⟨o, ho, h⟩
    · exact .inl h
    cases h
    rcases slotAt_after_putBank (List.getElem?_eq_some_iff.mp ho).1 hy with ⟨hn, _⟩ | ⟨_, hk⟩
    · exact .inr (.raw (by simp [storesRawAt, hn]) rfl rfl)
    · exact .inr (.kept rfl rfl hk)
  | bfree b' =>
    rcases whenRunning_next h with h | ⟨hr, h⟩
    · exact .inl h
    rcases withBankNo_next hr h with h | ⟨o, ho, h⟩
    · exact .inl h
    cases h
    rcases slotAt_after_putBank (List.getElem?_eq_some_iff.mp ho).1 hy with ⟨_, bank, ⟨⟩, _⟩ | ⟨_, hk⟩
    exact .inr (.kept rfl rfl hk)
  | binit b' qp initId =>
    rcases withBank_next h with h | ⟨hr, bank, hb, h⟩
    · exact .inl h
    split at h
    · exact .inl (raise_next hr h)
    split at h
    · exact .inl (raise_next hr h)
    cases h
    rcases slotAt_after_putBank (bankAt_lt hb) hy with ⟨_, _, ⟨⟩, hg⟩ | ⟨hn, hk⟩
    · obtain ⟨e, _, rfl⟩ := List.mem_map.mp (List.mem_of_getElem? hg)
      exact .inr (.rom _ _ _ _ _)
    · exact .inr (.kept (by simpa [seedsAt] using hn) rfl hk)
  | bcpy dst src =>
    rcases whenRunning_next h with h | ⟨hr, h⟩
    · exact .inl h
    rcases withBankNo_next hr h with h | ⟨o, ho, h⟩
    · exact .inl h
    rcases withBankNo_next hr h with h | ⟨p, hp, h⟩
    · exact .inl h
    split at h
    · rename_i heq
      cases h
      subst heq
      by_cases hn : dst.toNat = b
      · subst hn
        exact .inr (.copied (c := dst) rfl (by simp [copiesFrom]) hy)
      · exact .inr (.kept rfl (by simp [copiesFrom, hn]) hy)
    · cases h
      rcases slotAt_after_putBank (List.getElem?_eq_some_iff.mp ho).1 hy with ⟨hn, bank, rfl, hg⟩ | ⟨hn, hk⟩
      · exact .inr (.copied (c := src) rfl (by simp [copiesFrom, hn]) ((slotAt_eq (bankAt_eq_some.mpr hp) _).trans hg))
      · exact .inr (.kept rfl (by simp [copiesFrom, hn]) hk)
  | bcpr dst src off size =>
    rcases whenRunning_next h with h | ⟨hr, h⟩
    · exact .inl h
    rcases withBankNo_next hr h with h | ⟨o, ho, h⟩
    · exact .inl h
    rcases withBankNo_next hr h with h | ⟨p, hp, h⟩
    · exact .inl h
    rcases withLive_next (o := o) hr h with h | ⟨bd, rfl, h⟩
    · exact .inl h
    rcases withLive_next (o := p) hr h with h | ⟨bs, rfl, h⟩
    · exact .inl h
    have hd := bankAt_eq_some.mpr ho
    have hsrc := bankAt_eq_some.mpr hp
    by_cases hin : dst.toNat = b ∧ off.toNat ≤ j ∧ j < off.toNat + size.toNat
    · refine (?_ : Stopped s t ∨ s.slotAt src.toNat j = some y).imp id
        fun hx => .copied (c := src) rfl (by simp [copiesFrom, hin]) hx
      split at h
      · split at h
        · rename_i heq
          cases h
          rw [← heq, hin.1]
          exact .inr hy
        · rename_i hle _
          cases h
          rcases slotAt_after_putBank (bankAt_lt hd) hy with ⟨_, _, ⟨⟩, hg⟩ | ⟨hn, _⟩
          · rw [copyRange_getElem? (by rw [hs.slots hd]; exact hle) (by rw [hs.slots hd, hs.slots hsrc]), if_pos hin.2] at hg
            exact .inr ((slotAt_eq hsrc _).trans hg)
          · exact absurd hin.1 hn
      · exact .inl (raise_next hr h)
    · refine (?_ : Stopped s t ∨ s.slotAt b j = some y).imp id
        fun hx => .kept rfl (by simp only [copiesFrom, if_neg hin]) hx
      split at h
      · split at h
        · cases h
          exact .inr hy
        · rename_i hle _
          cases h
          rcases slotAt_after_putBank (bankAt_lt hd) hy with ⟨hn, _, ⟨⟩, hg⟩ | ⟨_, hk⟩
          · rw [copyRange_getElem? (by rw [hs.slots hd]; exact hle) (by rw [hs.slots hd, hs.slots hsrc]),
              if_neg fun hj => hin ⟨hn, hj⟩] at hg
            subst hn
            exact .inr ((slotAt_eq hd _).trans hg)
          · exact .inr hk
      · exact .inl (raise_next hr h)
  | bwin b' rates =>
    rcases withSize_next h with h | ⟨hr, bank, hb, _, h⟩
    · exact .inl h
    split at h
    · exact .inl (raise_next hr h)
    cases h
    rcases slotAt_after_putBank (bankAt_lt hb) hy with ⟨rfl, _, ⟨⟩, hg⟩ | ⟨_, hk⟩
    · obtain ⟨v, x, _, hx, rfl⟩ := List.getElem?_zipWith_eq_some.mp hg
      exact .inr (.rated rfl rfl ((slotAt_eq hb _).trans hx))
    · exact .inr (.kept rfl rfl hk)
  | bld b' words =>
    rcases withSize_next h with h | ⟨_, bank, hb, _, h⟩
    · exact .inl h
    cases h
    rcases slotAt_after_putBank (bankAt_lt hb) hy with ⟨hn, _⟩ | ⟨_, hk⟩
    · exact .inr (.raw (by simp [storesRawAt, hn]) rfl rfl)
    · exact .inr (.kept rfl rfl hk)
  | grwr b' k value =>
    rcases withStat_next h with h | ⟨_, bank, v, hb, _, h⟩
    · exact .inl h
    cases h
    rcases slotAt_after_putBank (bankAt_lt hb) hy with ⟨rfl, _, ⟨⟩, hg⟩ | ⟨_, hk⟩
    · exact .inr (.kept rfl rfl ((slotAt_eq hb _).trans hg))
    · exact .inr (.kept rfl rfl hk)
  | _ =>
    rcases exec_next h with h | h | ⟨_, d, o, hw, _⟩
    · exact .inl h
    · exact .inr (.kept rfl rfl (by rw [← slotAt_congr h.banks_eq]; exact hy))
    · cases hw

end Sys2Proof.Machine
end

