-- ==== Sys2Proof/Laws/Step.lean ====
section
/-! SUPPORT. All that one step can do. -/

namespace Sys2Proof.Machine

open Sys2Proof

variable {s t : State}

/-- A step waits, runs the command presented, or resets. -/
theorem step_next (h : step s = .next t) :
    s.inputs = [] ∧ t = s ∨
    (∃ c rest, s.inputs = .command c :: rest ∧ runCommand c { s with inputs := rest } = .next t) ∨
    (∃ rest, s.inputs = .reset :: rest ∧ t = State.clear { s with inputs := rest }) ∨
    ∃ c rest, s.inputs = .resetDuring c :: rest ∧ t = State.clearDuring { s with inputs := rest } := by
  unfold step at h
  split at h
  · cases h; exact .inl ⟨‹_›, rfl⟩
  · exact .inr (.inl ⟨_, _, ‹_›, h⟩)
  · cases h; exact .inr (.inr (.inl ⟨_, ‹_›, rfl⟩))
  · cases h; exact .inr (.inr (.inr ⟨_, _, ‹_›, rfl⟩))

/-- A presented command stops, or decodes to an instruction that answers or writes. -/
theorem runCommand_next {c : Command} (h : runCommand c s = .next t) :
    Stopped s t ∨ ∃ i, decode c = .ok i ∧ (OnlyAnswered i s t ∨ WroteBank i s t) := by
  unfold runCommand at h
  split at h
  · rcases exec_next h with h1 | h1
    · exact .inl h1
    · exact .inr ⟨_, ‹_›, h1⟩
  · rcases whenRunning_next h with h1 | ⟨hr, h1⟩
    · exact .inl h1
    · exact .inl (raise_next hr h1)

end Sys2Proof.Machine
end

