-- ==== Sys2Proof/Tests/Slice0.lean ====
section
/-! SUPPORT. Tests and witnesses. Expected values come from spec/95_test_vectors.md, from the worked examples of the rules,
or from words written out from R71 and R72; never from the model. Each step test is one command on a small state. -/

namespace Sys2Proof.Tests

set_option Elab.async false

open Sys2Proof Sys2Proof.Machine

/-! ### Helpers -/

/-- `CFG_EX1` with a concrete cost table that meets R121 and a concrete sentinel. -/
def config : Config :=
  { example1 with
    bitCost := Vector.ofFn fun q => ⟨BitVec.ofNat 32 (q.val + 1), BitVec.ofNat 32 (256 - q.val)⟩
    cnu := 0 }

/-- The bank that `BNEW` and `BINIT 0, 32, 0` leave (95_test_vectors.md P1), with one statistics word set. -/
def bankI : Bank := ⟨[⟨10249, 10249, 5⟩, ⟨21969, 21969, 8⟩, ⟨28077, 28077, 8⟩], [0, 42, 0, 0]⟩

/-- A bank of zeroed slots. -/
def bankZ : Bank := ⟨[⟨0, 0, 0⟩, ⟨0, 0, 0⟩, ⟨0, 0, 0⟩], [0, 0, 0, 0]⟩

/-- Not halted, with these banks. -/
def withBanks (banks : List (Option Bank)) : State := { State.reset with cfg := config, banks := banks }

/-- Bank 0 live. -/
def one : State := withBanks [some bankI, none, none, none]

/-- Banks 0 and 1 live. -/
def two : State := withBanks [some bankI, some bankZ, none, none]

/-- Bank 0 live and slot 0 of it replaced. -/
def slotted (x : Slot) : State := withBanks [some ⟨[x, ⟨0, 0, 0⟩, ⟨0, 0, 0⟩], [0, 0, 0, 0]⟩, none, none, none]

/-- Halted by `SizeMismatch(3, 2)`. -/
def stuck : State := { one with fcode := 4, finfo0 := 3, finfo1 := 2, halt := true }

/-- The state with one input. -/
def fed (s : State) (i : Input) : State := { s with inputs := [i] }

/-- Does the result go on? -/
def runs : Result → Bool
  | .next _ => true
  | .fault _ => false
  | .refused _ => false

/-- The state a result leads to. -/
def landed : Result → State
  | .next t => t
  | .fault _ => State.reset
  | .refused _ => State.reset

theorem runs_next {r : Result} (h : runs r = true) : r = .next (landed r) := by
  cases r <;> first | rfl | cases h

/-- The state after one instruction. -/
def after (i : Instr) (s : State) : State := landed (exec i s)

/-- The responses of one instruction. -/
def replies (i : Instr) (s : State) : List Response := (after i s).responses

/-- The fault registers and `HALT`. -/
def diagnosis (s : State) : Byte × Word × Word × Bool := (s.fcode, s.finfo0, s.finfo1, s.halt)

/-! ### Well-formedness: each check refuses an ill-formed term (R73: `LEN` has 16 bits) -/

/-- A payload one word too long for the field `LEN` exists. -/
theorem long_payload : ∃ l : List Word, l.length = 65536 := ⟨List.replicate 65536 0, List.length_replicate⟩

theorem test_long_smrg_refused {l : List Word} (h : l.length = 65536) : (Instr.smrg l).wellFormed = false := by
  simp [Instr.wellFormed, fitsLen, h]

theorem test_long_bwin_refused {l : List Word} (h : l.length = 65536) : (Instr.bwin 0 l).wellFormed = false := by
  simp [Instr.wellFormed, fitsLen, h]

theorem test_long_bld_refused {l : List Word} (h : l.length = 65536) : (Instr.bld 0 l).wellFormed = false := by
  simp [Instr.wellFormed, fitsLen, h]

/-! ### Decoding: one word per command, written out from R71 and R72 -/

theorem test_decode_pinit : decodeTableWord 64 0x100000000000F0FF = some (.pinit 0 0 0 0xF0 0xFF) := by decide
theorem test_decode_prate : decodeTableWord 64 0x1130000200010005 = some (.prate 3 2 1 5) := by decide
theorem test_decode_pupd : decodeTableWord 64 0x1210000000020001 = some (.pupd 1 0 2 true) := by decide
theorem test_decode_pget : decodeTableWord 64 0x1310000200030000 = some (.pget 1 2 3) := by decide
theorem test_decode_pset : decode ⟨0x1400000000010000, [0xFFFFFFFF]⟩ = .ok (.pset 0 0 1 0xFFFFFFFF) := by decide
theorem test_decode_pest : decodeTableWord 64 0x1520000100020001 = some (.pest 2 1 2 true) := by decide
theorem test_decode_pqry : decodeTableWord 64 0x1620000000020000 = some (.pqry 2 0 2) := by decide
theorem test_decode_tget : decodeTableWord 64 0x2000FFFF00010003 = some (.tget 0xFFFF 1 3) := by decide
theorem test_decode_tcnt : decodeTableWord 64 0x2100000000000000 = some .tcnt := by decide
theorem test_decode_tgrp : decodeTableWord 64 0x2200000100000000 = some (.tgrp 1) := by decide
theorem test_decode_smrg :
    decode ⟨0x2300000200000000, [0x00010000, 0x00010002]⟩ = .ok (.smrg [0x00010000, 0x00010002]) := by decide
theorem test_decode_bnew : decodeTableWord 64 0x3040000000000000 = some (.bnew 4) := by decide
theorem test_decode_bfree : decodeTableWord 64 0x3110000000000000 = some (.bfree 1) := by decide
theorem test_decode_binit : decodeTableWord 64 0x322000000000FD01 = some (.binit 2 0xFD 1) := by decide
theorem test_decode_bcpy : decodeTableWord 64 0x3310000000000000 = some (.bcpy 1 0) := by decide
theorem test_decode_bcpr : decodeTableWord 64 0x3420000100020000 = some (.bcpr 2 0 1 2) := by decide
theorem test_decode_bwin : decode ⟨0x3520000300000000, [5, 8, 8]⟩ = .ok (.bwin 2 [5, 8, 8]) := by decide
theorem test_decode_bld : decodeTableWord 160 0x0000000B0000000A3620000300000000 = some (.bld 2 [10, 11, 0]) := by decide
theorem test_decode_bsv : decodeTableWord 64 0x3710000300000000 = some (.bsv 1 3) := by decide
theorem test_decode_grrd : decodeTableWord 64 0x3800000100000000 = some (.grrd 0 1) := by decide
theorem test_decode_grwr : decode ⟨0x3900000100000000, [0x2A]⟩ = .ok (.grwr 0 1 0x2A) := by decide
theorem test_decode_rnm : decodeTableWord 64 0x4000000000000025 = some (.rnm 37) := by decide
theorem test_decode_rdsr : decodeTableWord 64 0x7000000600000000 = some (.rdsr 6) := by decide

/-- The last `PINIT` field order: every field at a value of its own. -/
theorem test_decode_field_order : decodeTableWord 64 0x1070123456789ABC = some (.pinit 7 0x1234 0x5678 0x9A 0xBC) := by
  decide

theorem test_encode_field_order : (encode (.bcpr 2 9 0x1234 0x5678)).cw = 0x3429123456780000 := by decide

/-! ### Encodings that are refused, by name (R77, R73; 95_test_vectors.md 2.2, 2.4, 2.7, 2.8) -/

theorem test_decode_zero : decode ⟨0, []⟩ = .error .unassignedOpcode := by decide
theorem test_decode_ff : decode ⟨0xFF00000000000000, []⟩ = .error .unassignedOpcode := by decide
theorem test_decode_pinit_bs : decode ⟨0x1001000000000000, []⟩ = .error .reservedField := by decide
theorem test_decode_rnm_high : decode ⟨0x4000000000000125, []⟩ = .error .reservedField := by decide
theorem test_decode_prate_high : decode ⟨0x1100000000000105, []⟩ = .error .reservedField := by decide
theorem test_decode_pest_two : decode ⟨0x1500000000000002, []⟩ = .error .reservedField := by decide
theorem test_decode_pset_empty : decode ⟨0x1400000000000000, []⟩ = .error .payloadLength := by decide
theorem test_decode_smrg_short : decode ⟨0x2300000200000000, [0]⟩ = .error .payloadLength := by decide

/-! ### One step of each command (95_test_vectors.md part 2) -/

theorem test_pinit_floor : (after (.pinit 0 0 0 1 0x03) one).slotAt 0 0 = some ⟨797, 797, 5⟩ := by decide +kernel
theorem test_pinit_clips : (after (.pinit 0 0 1 0x7F 0xFF) one).slotAt 0 1 = some ⟨32153, 32153, 8⟩ := by decide +kernel
theorem test_prate_sets : (after (.prate 0 0 1 13) one).slotAt 0 1 = some ⟨21969, 21969, 13⟩ := by decide +kernel
theorem test_prate_bad : diagnosis (after (.prate 0 0 0 11) two) = (7, 0, 11, true) := by decide +kernel
theorem test_pupd_one : (after (.pupd 0 0 0 true) one).slotAt 0 0 = some ⟨13063, 10424, 5⟩ := by decide +kernel
theorem test_pupd_zero : (after (.pupd 0 0 0 false) (slotted ⟨32767, 32767, 5⟩)).slotAt 0 0 = some ⟨28672, 32512, 5⟩ := by
  decide +kernel
theorem test_pget_word : replies (.pget 0 0 1) one = [⟨0x55D155D1, []⟩] := by decide +kernel
theorem test_pget_past_end : diagnosis (after (.pget 0 0xFFFF 1) one) = (6, 0x10000, 3, true) := by decide +kernel
theorem test_pset_drops_spare_bits : (after (.pset 0 0 1 0xFFFFFFFF) one).slotAt 0 1 = some ⟨32767, 32767, 8⟩ := by
  decide +kernel
theorem test_pset_spare_bits_only : (after (.pset 0 0 1 0x80008000) one).slotAt 0 1 = some ⟨0, 0, 8⟩ := by decide +kernel
theorem test_pest_row : replies (.pest 0 0 0 true) (slotted ⟨13063, 10424, 5⟩) = [⟨165, []⟩] := by decide +kernel
theorem test_pqry_word : replies (.pqry 0 0 0) (slotted ⟨13063, 10424, 5⟩) = [⟨0x055B5BBF, []⟩] := by decide +kernel
theorem test_pqry_top : replies (.pqry 0 0 0) (slotted ⟨32767, 32767, 13⟩) = [⟨0x0DFFFFFE, []⟩] := by decide +kernel
theorem test_tget_byte : replies (.tget 0 2 2) one = [⟨154, []⟩] := by decide +kernel
theorem test_tget_id_first : diagnosis (after (.tget 0 3 4) one) = (5, 4, 0, true) := by decide +kernel
theorem test_tcnt_count : replies .tcnt one = [⟨3, []⟩] := by decide +kernel
theorem test_tgrp_handle : replies (.tgrp 0) one = [⟨0x00030000, []⟩] := by decide +kernel
theorem test_tgrp_bad : diagnosis (after (.tgrp 1) one) = (9, 1, 1, true) := by decide +kernel
theorem test_smrg_gap : replies (.smrg [0x00010000, 0x00010002]) one = [⟨0x00030000, []⟩] := by decide +kernel
theorem test_smrg_bad : diagnosis (after (.smrg [0x00020002]) one) = (8, 0x00020002, 3, true) := by decide +kernel
theorem test_bnew_bad_bank : diagnosis (after (.bnew 4) one) = (2, 4, 4, true) := by decide +kernel
theorem test_bnew_zeroes : (after (.bnew 0) one).bankAt 0 = some bankZ := by decide +kernel
theorem test_bfree_dummy : (after (.bfree 0) two).liveAt 0 = false := by decide +kernel
theorem test_binit_i_row : (after (.binit 1 32 0) two).slotAt 1 2 = some ⟨28077, 28077, 8⟩ := by decide +kernel
theorem test_binit_b_row_qp37 : (after (.binit 0 37 2) one).bankAt 0 =
    some ⟨[⟨614, 614, 5⟩, ⟨9235, 9235, 8⟩, ⟨16384, 16384, 8⟩], [0, 42, 0, 0]⟩ := by decide +kernel
theorem test_bcpy_statistics : (after (.bcpy 1 0) one).statAt 1 1 = some 42 := by decide +kernel
theorem test_bcpy_dummy : (after (.bcpy 1 2) two).bankAt 1 = none := by decide +kernel
theorem test_bcpr_range : (after (.bcpr 1 0 0 2) two).bankAt 1 =
    some ⟨[⟨10249, 10249, 5⟩, ⟨21969, 21969, 8⟩, ⟨0, 0, 0⟩], [0, 0, 0, 0]⟩ := by decide +kernel
theorem test_bcpr_bad : diagnosis (after (.bcpr 0 0 2 2) one) = (8, 0x00020002, 3, true) := by decide +kernel
theorem test_bwin_ignores_upper_bits : (after (.bwin 1 [0x105, 0xFFFFFF08, 8]) two).slotAt 1 1 = some ⟨0, 0, 8⟩ := by
  decide +kernel
theorem test_bwin_bad : diagnosis (after (.bwin 0 [5, 11, 8]) one) = (7, 1, 11, true) := by decide +kernel
theorem test_bld_stores : (after (.bld 1 [0x03611219, 0x28092809, 0x3F803C00]) two).slotAt 1 0 =
    some ⟨4633, 865, 0⟩ := by decide +kernel
theorem test_bld_short : diagnosis (after (.bld 0 [0, 0]) one) = (4, 3, 2, true) := by decide +kernel
theorem test_bsv_words : replies (.bsv 0 3) one = [⟨0, [0x28092809, 0x55D155D1, 0x6DAD6DAD]⟩] := by decide +kernel
theorem test_bsv_long : diagnosis (after (.bsv 0 4) one) = (4, 3, 4, true) := by decide +kernel
theorem test_grrd_bad : diagnosis (after (.grrd 0 4) one) = (10, 4, 4, true) := by decide +kernel
theorem test_grrd_word : replies (.grrd 0 1) one = [⟨0x2A, []⟩] := by decide +kernel
theorem test_grwr_word : (after (.grwr 0 3 7) one).bankAt 0 = some { bankI with gr := [0, 42, 0, 7] } := by decide +kernel
theorem test_rnm_37 : replies (.rnm 37) one = [⟨0x01280003, []⟩] := by decide +kernel
theorem test_rnm_3 : replies (.rnm 3) one = [⟨0x00C00006, []⟩] := by decide +kernel
theorem test_rdsr_cfg : replies (.rdsr 9) one = [⟨0xFFF, []⟩] := by decide +kernel
theorem test_rdsr_halted : replies (.rdsr 6) stuck = [⟨0x104, []⟩] := by decide +kernel

/-- A dummy bank is reported before an index (95_test_vectors.md 2.6). -/
theorem test_dummy_bank : diagnosis (after (.pget 1 0 9) one) = (3, 1, 0, true) := by decide +kernel

/-- A halted PME refuses with the code (95_test_vectors.md P3, steps 13 and 17). -/
theorem test_halted_refuses : replies (.pget 0 0 0) stuck = [⟨0xFF00000000000004, []⟩] := by decide +kernel
theorem test_halted_refuses_rdsr_10 : replies (.rdsr 10) stuck = [⟨0xFF00000000000004, []⟩] := by decide +kernel

/-- The first command after reset is fetched and run: `BNEW 0`. -/
theorem test_first_step : (landed (step (State.reset.withFetchWord 64 0x3000000000000000))).liveAt 0 = true := by
  decide +kernel

/-- `CW = 0` is `IllegalCommand(0, 0)` (95_test_vectors.md 2.8). -/
theorem test_illegal_step : diagnosis (landed (step (State.reset.withFetchWord 64 0))) = (1, 0, 0, true) := by
  decide +kernel

/-- Reset leaves the halted state with every bank dummy (95_test_vectors.md P3, steps 18 and 19). -/
theorem test_reset_step : diagnosis (landed (step (fed stuck .reset))) = (0, 0, 0, false) ∧
    (landed (step (fed stuck .reset))).bankAt 0 = none := by decide +kernel

/-- Reduced precisions mask each field (95_test_vectors.md 2.3: `PREC0 = 10`, `PREC1 = 14`). -/
theorem test_masked_update : (after (.pupd 0 0 0 true)
    { slotted ⟨10240, 10248, 5⟩ with cfg := { config with prec0 := 10, prec1 := 14 } }).slotAt 0 0 =
    some ⟨13024, 10422, 5⟩ := by decide +kernel

/-! ### The premises `WF`, `Shape` and the invariants on the small states -/

theorem config_wf : config.WF where
  prec0_range := by decide
  prec1_range := by decide
  qpMax_range := by decide
  count_literals := by decide +kernel
  count_monotone := by
    have h : ∀ j : Fin 127, config.stateToCount[j.val].toNat ≤ config.stateToCount[j.val + 1].toNat := by decide +kernel
    exact fun j hj => h ⟨j, by omega⟩
  count_symmetric := by decide +kernel
  count_interior := by decide +kernel
  shift_range := by
    intro w h p hp
    simp only [config, example1, registerAll, Vector.getElem_ofFn, defaultRatePair] at hp
    split at hp
    · cases hp
    split at hp
    · cases hp
    · cases hp; dsimp only; omega
  printed_rates := by decide +kernel
  rom_rates := by decide +kernel
  cost_low := by
    intro q h
    simp only [config, Vector.getElem_ofFn, BitVec.toNat_ofNat]; omega
  cost_high := by
    intro q h _
    simp only [config, Vector.getElem_ofFn, BitVec.toNat_ofNat]; omega
  cost_positive := by
    intro q h
    simp only [config, Vector.getElem_ofFn, BitVec.toNat_ofNat]; omega
  scale_range := by decide
  nctx_range := by decide
  ngrp_range := by decide
  groups_cover := ⟨rfl, rfl⟩
  nbank_range := by decide
  ngr_range := by decide

theorem two_shape : two.Shape where
  bank_count := rfl
  slot_count := by intro bank h; simp [two, withBanks] at h; rcases h with rfl | rfl <;> rfl
  stat_count := by intro bank h; simp [two, withBanks] at h; rcases h with rfl | rfl <;> rfl

theorem one_shape : one.Shape where
  bank_count := rfl
  slot_count := by intro bank h; simp [one, withBanks] at h; subst h; rfl
  stat_count := by intro bank h; simp [one, withBanks] at h; subst h; rfl

theorem stuck_shape : stuck.Shape := ⟨rfl, one_shape.slot_count, one_shape.stat_count⟩

theorem bankI_slots {P : Slot → Prop} (h : ∀ x ∈ bankI.slots, P x) : ∀ b i x, one.slotAt b i = some x → P x := by
  intro b i x hx
  refine forall_slotAt (fun bank hb => ?_) hx
  simp [one, withBanks] at hb
  subst hb
  exact h

theorem one_masked : one.MaskInvariant := bankI_slots (by simp only [Slot.Masked]; decide +kernel)
theorem one_rates : one.RateInvariant := bankI_slots (by decide +kernel)

/-- A slot of bank 0 of `two`, whose bank 1 holds zeroed slots, is strictly interior. -/
theorem two_interiorAt {j : Nat} {x : Slot} (h : two.slotAt 0 j = some x) (hx : x.Interior) : two.InteriorAt 0 j := by
  intro y hy
  rw [h] at hy
  cases hy
  exact hx

/-! ### Witnesses: for each statement with premises, states and operands that meet them all, clause by clause -/

/-- An instruction's result, as the premise `exec i s = .next t` wants it. -/
theorem exec_after {i : Instr} {s : State} (h : runs (exec i s) = true) : exec i s = .next (after i s) := runs_next h

theorem witness_WorkedEncodingsDecode : State.reset.halt = false := rfl

theorem witness_DecodeInvertsEncode :
    (Instr.bld 15 [0xFFFFFFFF]).wellFormed = true ∧ (Instr.smrg []).wellFormed = true ∧
    (Instr.pinit 15 0xFFFF 0xFFFF 0xFF 0xFF).wellFormed = true := by decide

theorem witness_EncodeInvertsDecode : decode ⟨0x10F0FFFFFFFFFFFF, []⟩ = .ok (.pinit 15 0xFFFF 0xFFFF 0xFF 0xFF) ∧
    decode ⟨0x2300000000000000, []⟩ = .ok (.smrg []) := by decide

theorem witness_StepExecutesDecodedCommand :
    (fed one (.command ⟨0x1200000000000001, []⟩)).inputs = .command ⟨0x1200000000000001, []⟩ :: [] ∧
    decode ⟨0x1200000000000001, []⟩ = .ok (.pupd 0 0 0 true) := by decide

/-- In the table; not in it for each of the three reasons. -/
theorem witness_UnlistedCommandIsIllegal : one.halt = false ∧
    (fed one (.command ⟨0, []⟩)).inputs = .command ⟨0, []⟩ :: [] ∧
    inTable ⟨0x2300000100000000, [0x00010000]⟩ ∧ ¬inTable ⟨0, []⟩ ∧ ¬inTable ⟨0xFF00000000000000, []⟩ ∧
    ¬inTable ⟨0x1200000000000002, []⟩ ∧ ¬inTable ⟨0x2300000100000000, []⟩ := by
  simp only [inTable]; decide +kernel

/-- A command that is no `RDSR`, and the first `RDSR` number that is not well-formed. -/
theorem witness_HaltedCommandRefused : stuck.halt = true ∧
    (∀ n : Nat, n < 10 → (⟨0x1300000000000000, []⟩ : Command) ≠ ⟨BitVec.ofNat 64 (0x70 * 2 ^ 56 + n * 2 ^ 32), []⟩) ∧
    (∀ n : Nat, n < 10 → (⟨0x7000000A00000000, []⟩ : Command) ≠ ⟨BitVec.ofNat 64 (0x70 * 2 ^ 56 + n * 2 ^ 32), []⟩) := by
  decide +kernel

/-- Registers 0 and 9, the ends of the range. -/
theorem witness_RdsrReadsRegisters : two.cfg.WF ∧ two.Shape ∧ (0 : Half).toNat < 10 ∧ (9 : Half).toNat < 10 :=
  ⟨config_wf, two_shape, by decide, by decide⟩

theorem witness_RdsrBadNumberStops : 10 ≤ (10 : Half).toNat ∧ stuck.halt = true ∧ one.halt = false := by decide

theorem witness_PortOutsideCommands : one.inputs = [] ∧ (fed one .reset).inputs = .reset :: [] ∧
    (fed one (.resetDuring ⟨0, []⟩)).inputs = .resetDuring ⟨0, []⟩ :: [] := by decide

theorem witness_ResetInputClears : (fed one .reset).inputs = .reset :: [] ∧
    (fed stuck (.resetDuring ⟨0, []⟩)).inputs = .resetDuring ⟨0, []⟩ :: [] ∧ (fed stuck .reset).halt = true ∧
    runs (step (fed stuck .reset)) = true ∧ (landed (step (fed stuck .reset))).halt = false := by decide +kernel

/-- One command for each kind of status: completed, with and without output; faulted; refused. -/
theorem witness_OneResponsePerCommand :
    runs (step (fed one (.command ⟨0x3700000300000000, []⟩))) = true ∧
    runs (step (fed one (.command ⟨0x3110000000000000, []⟩))) = true ∧
    decode ⟨0x3110000000000000, []⟩ = .ok (.bfree 1) ∧ writtenBank (.bfree 1) ≠ none ∧
    runs (step (fed one (.command ⟨0, []⟩))) = true ∧
    runs (step (fed stuck (.command ⟨0x3110000000000000, []⟩))) = true := by decide +kernel

/-- A running state that meets every invariant and a step from it. -/
theorem witness_invariants : one.Shape ∧ one.MaskInvariant ∧ one.RateInvariant ∧ one.HaltInvariant ∧
    step one = .next one := ⟨one_shape, one_masked, one_rates, by simp only [State.HaltInvariant]; decide, rfl⟩

/-- The same state with a command presented: the invariants do not read the inputs. -/
theorem witness_StepKeepsShape : (fed one (.command ⟨0x3010000000000000, []⟩)).Shape ∧
    runs (step (fed one (.command ⟨0x3010000000000000, []⟩))) = true :=
  ⟨⟨one_shape.bank_count, one_shape.slot_count, one_shape.stat_count⟩, by decide +kernel⟩

theorem witness_StepKeepsMasks : (fed one (.command ⟨0x1200000000000001, []⟩)).MaskInvariant ∧
    runs (step (fed one (.command ⟨0x1200000000000001, []⟩))) = true := ⟨one_masked, by decide +kernel⟩

theorem witness_StepKeepsRates : (fed one (.command ⟨0x1100000000000008, []⟩)).RateInvariant ∧
    runs (step (fed one (.command ⟨0x1100000000000008, []⟩))) = true := ⟨one_rates, by decide +kernel⟩

theorem witness_StepKeepsHaltIffCode : (fed one (.command ⟨0, []⟩)).HaltInvariant ∧ (fed stuck .reset).HaltInvariant ∧
    runs (step (fed one (.command ⟨0, []⟩))) = true ∧ runs (step (fed stuck .reset)) = true := by
  simp only [State.HaltInvariant]; decide +kernel

theorem witness_StepKeepsConfiguration : runs (step (fed one .reset)) = true := by decide +kernel

theorem witness_FaultsArePrecise : (fed one (.command ⟨0x3600000000000000, []⟩)).halt = false ∧
    runs (step (fed one (.command ⟨0x3600000000000000, []⟩))) = true ∧
    (landed (step (fed one (.command ⟨0x3600000000000000, []⟩)))).halt = true := by decide +kernel

theorem witness_HaltLastsUntilReset : (fed stuck (.command ⟨0x3000000000000000, []⟩)).halt = true ∧
    runs (step (fed stuck (.command ⟨0x3000000000000000, []⟩))) = true := by decide +kernel

/-- A bank a command does not write, and a command that writes none. -/
theorem witness_BanksAreIndependent : runs (exec (.pupd 0 0 0 true) two) = true ∧
    (∀ d, writtenBank (.pupd 0 0 0 true) = some d → d.toNat ≠ 1) ∧
    runs (exec (.pget 0 0 0) two) = true ∧ (∀ d, writtenBank (.pget 0 0 0) = some d → d.toNat ≠ 0) := by
  refine ⟨by decide +kernel, ?_, by decide +kernel, nofun⟩
  rintro d ⟨⟩; decide

theorem witness_ReadsChangeNothing : writtenBank (.bsv 0 3) = none ∧ runs (exec (.bsv 0 3) one) = true ∧
    (after (.bsv 0 3) one).halt = one.halt ∧ writtenBank (.pget 0 0 0) = none ∧ runs (exec (.pget 0 0 0) stuck) = true ∧
    (after (.pget 0 0 0) stuck).halt = stuck.halt := by decide +kernel

theorem witness_WritesAreIdempotent : (∀ b off sub bin, Instr.binit 0 32 1 ≠ .pupd b off sub bin) ∧ two.halt = false ∧
    two.Shape ∧ runs (exec (.binit 0 32 1) two) = true ∧ (after (.binit 0 32 1) two).halt = false ∧
    runs (exec (.binit 0 32 1) (after (.binit 0 32 1) two)) = true :=
  ⟨nofun, rfl, two_shape, by decide +kernel, by decide +kernel, by decide +kernel⟩

/-- Different banks, the same index; the same bank, neighbouring indices. -/
theorem witness_UpdatesOfDifferentSlotsCommute : two.halt = false ∧ two.slotAt 0 0 = some ⟨10249, 10249, 5⟩ ∧
    two.slotAt 0 1 = some ⟨21969, 21969, 8⟩ ∧ two.slotAt 1 0 = some ⟨0, 0, 0⟩ ∧ ((0 : BankNo) ≠ 1) ∧
    validRate two.cfg 5 = true ∧ validRate two.cfg 8 = true ∧ validRate two.cfg 0 = true := by decide +kernel

/-- Halted; bank 4, the first that is not there; bank 1, dummy; index 3, the first that is not there; a completed one. -/
theorem witness_SlotCommandsCheckInOrder : one.Shape ∧ stuck.Shape ∧ stuck.halt = true ∧ one.halt = false ∧
    slotAddress (.pget 4 3 0) = some (4, 3, 0) ∧ slotAddress (.pset 1 3 0 0) = some (1, 3, 0) ∧
    slotAddress (.pupd 0 1 2 true) = some (0, 1, 2) ∧ slotAddress (.pupd 0 1 1 true) = some (0, 1, 1) ∧
    one.cfg.nbank ≤ (4 : BankNo).toNat ∧ (3 : BankNo).toNat < one.cfg.nbank ∧ one.liveAt 3 = false ∧
    one.liveAt 0 = true ∧ one.cfg.nctx ≤ (1 : Half).toNat + (2 : Half).toNat ∧
    runs (exec (.pupd 0 1 1 true) one) = true := ⟨one_shape, stuck_shape, by decide +kernel⟩

/-- The same for the bank commands, with a source. -/
theorem witness_BankCommandsCheckInOrder : one.Shape ∧ stuck.Shape ∧ stuck.halt = true ∧ one.halt = false ∧
    bankField (.bcpr 4 0 0 0) = some 4 ∧ one.cfg.nbank ≤ (4 : BankNo).toNat ∧
    bankField (.bcpr 3 4 0 0) = some 3 ∧ sourceField (.bcpr 3 4 0 0) = some 4 ∧ (3 : BankNo).toNat < one.cfg.nbank ∧
    bankField (.bcpr 3 0 0 0) = some 3 ∧ (∀ c, sourceField (.bcpr 3 0 0 0) = some c → c.toNat < one.cfg.nbank) ∧
    needsLive (.bcpr 3 0 0 0) = true ∧ one.liveAt 3 = false ∧
    bankField (.bcpr 0 3 0 0) = some 0 ∧ one.liveAt 0 = true ∧ needsLive (.bcpr 0 3 0 0) = true ∧
    sourceField (.bcpr 0 3 0 0) = some 3 := by
  refine ⟨one_shape, stuck_shape, rfl, rfl, rfl, by decide, rfl, rfl, by decide, rfl, ?_, by decide⟩
  rintro c ⟨⟩; decide

/-- A slot there at the last index of the bank: premises of the results of `PINIT`, `PGET`, `PSET`, `PQRY` and `PEST`. -/
theorem witness_slot_results : one.halt = false ∧
    one.slotAt (0 : BankNo).toNat ((1 : Half).toNat + (1 : Half).toNat) = some ⟨28077, 28077, 8⟩ := by decide +kernel

/-- A byte without a pair, and the last byte with one. -/
theorem witness_PrateSetsRate : one.halt = false ∧ one.slotAt 0 0 = some ⟨10249, 10249, 5⟩ ∧
    one.cfg.ratePairs[(14 : Byte).toNat]? = some none ∧ one.cfg.ratePairs[(255 : Byte).toNat]? = some none ∧
    one.cfg.ratePairs[(13 : Byte).toNat]? = some (some ⟨5, 9⟩) := by decide +kernel

theorem witness_PupdMovesEstimates : one.halt = false ∧ one.slotAt 0 0 = some ⟨10249, 10249, 5⟩ ∧
    one.cfg.ratePairs[(5 : Byte).toNat]? = some (some ⟨3, 7⟩) ∧ (⟨10249, 10249, 5⟩ : Slot).Masked one.cfg ∧
    (slotted ⟨0, 0, 11⟩).slotAt 0 0 = some ⟨0, 0, 11⟩ ∧
    (slotted ⟨0, 0, 11⟩).cfg.ratePairs[(11 : Byte).toNat]? = some none := by
  simp only [Slot.Masked]; decide +kernel

/-- `initId` 4 and 3, index 3 and 2. -/
theorem witness_TgetReadsRom : one.halt = false ∧ 4 ≤ (4 : Byte).toNat ∧ (3 : Byte).toNat < 4 ∧
    one.cfg.nctx ≤ (0 : Half).toNat + (3 : Half).toNat ∧
    one.cfg.initRom[(0 : Half).toNat + (2 : Half).toNat]? = some ⟨216, 185, 154, 8⟩ ∧
    [(216 : Byte), 185, 154, 8][(3 : Byte).toNat]? = some 8 := by decide +kernel

theorem witness_TcntReturnsContextCount : one.halt = false := rfl

theorem witness_TgrpReturnsHandle : one.halt = false ∧ one.cfg.ngrp ≤ (1 : Half).toNat ∧
    one.cfg.groups[(0 : Half).toNat]? = some ⟨0, 3⟩ := by decide +kernel

/-- The empty list; a valid set at the end of the bank before an invalid one; two valid sets with a gap. -/
theorem witness_SmrgReturnsBoundingUnion : one.halt = false ∧ one.cfg.WF ∧
    ([0x00000003, 0x00010003] : List Word) = [0x00000003] ++ 0x00010003 :: [] ∧
    (∀ w ∈ ([0x00000003] : List Word), w.toNat % 2 ^ 16 + w.toNat / 2 ^ 16 ≤ one.cfg.nctx) ∧
    one.cfg.nctx < (0x00010003 : Word).toNat % 2 ^ 16 + (0x00010003 : Word).toNat / 2 ^ 16 ∧
    (∀ w ∈ ([0x00010000, 0x00010002] : List Word), w.toNat % 2 ^ 16 + w.toNat / 2 ^ 16 ≤ one.cfg.nctx) ∧
    (∃ w ∈ ([0x00010000, 0x00010002] : List Word), w.toNat % 2 ^ 16 = 0) ∧
    (∃ w ∈ ([0x00010000, 0x00010002] : List Word), w.toNat % 2 ^ 16 + w.toNat / 2 ^ 16 = 3) ∧
    (∀ w ∈ ([0x00010000, 0x00010002] : List Word), w.toNat % 2 ^ 16 + w.toNat / 2 ^ 16 ≤ 3) := by
  have hn : one.cfg.nctx = 3 := rfl
  refine ⟨rfl, config_wf, rfl, ?_, by decide, ?_, ⟨0x00010000, by simp, by decide⟩, ⟨0x00010002, by simp, by decide⟩, ?_⟩ <;>
    simp [hn]

/-- `BNEW`, `BFREE` and `BCPY`: the last bank, dummy, and bank 0, live. -/
theorem witness_whole_bank_commands : one.halt = false ∧ one.Shape ∧ (3 : BankNo).toNat < one.cfg.nbank ∧
    (0 : BankNo).toNat < one.cfg.nbank := ⟨rfl, one_shape, by decide, by decide⟩

/-- A catalogue whose second context has a rate without a pair. -/
def badRom : State := { one with cfg := { config with initRom := [⟨197, 197, 40, 5⟩, ⟨214, 198, 138, 11⟩, ⟨216, 185, 154, 8⟩] } }

theorem witness_BinitSeedsBank : one.halt = false ∧ one.liveAt (0 : BankNo).toNat = true ∧ 3 ≤ (3 : Byte).toNat ∧
    (2 : Byte).toNat < 3 ∧ (∀ e ∈ one.cfg.initRom, one.cfg.ratePairs[e.rate.toNat]? ≠ some none) ∧
    badRom.halt = false ∧ badRom.liveAt (0 : BankNo).toNat = true ∧
    badRom.cfg.initRom[1]? = some ⟨214, 198, 138, 11⟩ ∧ badRom.cfg.ratePairs[(11 : Byte).toNat]? = some none ∧
    badRom.cfg.initRom[0]? = some ⟨197, 197, 40, 5⟩ ∧ badRom.cfg.ratePairs[(5 : Byte).toNat]? ≠ some none := by
  decide +kernel

/-- The greatest range that fits and the least that does not. -/
theorem witness_BcprCopiesRange : two.halt = false ∧ two.Shape ∧ two.liveAt (0 : BankNo).toNat = true ∧
    two.liveAt (1 : BankNo).toNat = true ∧ two.cfg.nctx < (1 : Half).toNat + (3 : Half).toNat ∧
    (1 : Half).toNat + (2 : Half).toNat ≤ two.cfg.nctx := ⟨rfl, two_shape, by decide +kernel⟩

/-- Vectors of the size of the bank and one short, for `BLD` and `BSV`. -/
theorem witness_bulk_commands : two.halt = false ∧ two.Shape ∧ two.liveAt (1 : BankNo).toNat = true ∧
    ([1, 2] : List Word).length ≠ two.cfg.nctx ∧ ([1, 2, 3] : List Word).length = two.cfg.nctx ∧
    (2 : Half).toNat ≠ two.cfg.nctx ∧ (3 : Half).toNat = two.cfg.nctx ∧
    two.slotAt (1 : BankNo).toNat 2 = some ⟨0, 0, 0⟩ := ⟨rfl, two_shape, by decide +kernel⟩

/-- Besides those of the bulk commands: a bad rate at index 1 after a good one, and only good rates. -/
theorem witness_BwinSetsRates : ([5, 11, 8] : List Word).length = two.cfg.nctx ∧ ([5, 11, 8] : List Word)[1]? = some 11 ∧
    two.cfg.ratePairs[(11 : Word).toNat % 2 ^ 8]? = some none ∧ ([5, 11, 8] : List Word)[0]? = some 5 ∧
    two.cfg.ratePairs[(5 : Word).toNat % 2 ^ 8]? ≠ some none ∧
    (∀ v ∈ ([0x105, 0xFFFFFF08, 8] : List Word), two.cfg.ratePairs[v.toNat % 2 ^ 8]? ≠ some none) := by
  have h5 : two.cfg.ratePairs[5]? ≠ some none := by decide +kernel
  have h8 : two.cfg.ratePairs[8]? ≠ some none := by decide +kernel
  refine ⟨rfl, rfl, by decide +kernel, rfl, h5, fun v hv => ?_⟩
  simp only [List.mem_cons, List.not_mem_nil, or_false] at hv
  rcases hv with rfl | rfl | rfl
  · exact h5
  · exact h8
  · exact h8

/-- `GRRD` and `GRWR`: the last word and the first index that is not there. -/
theorem witness_statistics_commands : one.halt = false ∧ one.Shape ∧ one.liveAt (0 : BankNo).toNat = true ∧
    one.cfg.ngr ≤ (4 : Half).toNat ∧ (3 : Half).toNat < one.cfg.ngr ∧ one.statAt (0 : BankNo).toNat (3 : Half).toNat = some 0 :=
  ⟨rfl, one_shape, by decide +kernel⟩

theorem witness_RnmReturnsShift : one.halt = false := rfl

/-- Full precision, strictly inside at the top, and a reduced precision. -/
theorem witness_UpdateStaysInRange : 1 ≤ 15 ∧ 15 ≤ 15 ∧ (32766 : Estimate) &&& ~~~fieldMask 15 = 0 ∧ 1 ≤ 1 ∧
    0 < (32766 : Estimate).toNat ∧ (32766 : Estimate).toNat < 32767 ∧ 1 ≤ 10 ∧ 10 ≤ 15 ∧
    (10240 : Estimate) &&& ~~~fieldMask 10 = 0 := by decide

/-- Each clause at its boundary for `r = 3` (R112: limits 7 and 32760). -/
theorem witness_UpdateReachesFixedPoints : 1 ≤ 3 ∧ 3 ≤ 15 ∧ 2 ^ 3 - 1 ≤ (7 : Estimate).toNat ∧
    (7 : Estimate).toNat < 2 ^ 3 ∧ (32760 : Estimate).toNat ≤ 32768 - 2 ^ 3 ∧ 32768 - 2 ^ 3 < (32761 : Estimate).toNat := by
  decide

/-- Each clause on a state whose bank 1 holds zeroed slots: an update; the last slot of a copied range; a seeded slot. -/
theorem witness_CodingKeepsEstimatesInterior : two.cfg.WF ∧ two.cfg.prec0 = 15 ∧ two.cfg.prec1 = 15 ∧ two.Shape ∧
    runs (exec (.pupd 0 0 0 true) two) = true ∧ storesRawAt (.pupd 0 0 0 true) 0 0 = false ∧
    copiesFrom (.pupd 0 0 0 true) 0 0 = none ∧ two.InteriorAt 0 0 ∧
    runs (exec (.bcpr 1 0 0 2) two) = true ∧ copiesFrom (.bcpr 1 0 0 2) 1 1 = some 0 ∧
    (after (.bcpr 1 0 0 2) two).halt = false ∧ two.InteriorAt (0 : BankNo).toNat 1 ∧
    runs (exec (.pinit 1 0 2 32 197) two) = true ∧ seedsAt (.pinit 1 0 2 32 197) 1 2 = true ∧
    (after (.pinit 1 0 2 32 197) two).halt = false :=
  ⟨config_wf, rfl, rfl, two_shape, by decide +kernel, rfl, rfl,
    two_interiorAt (x := ⟨10249, 10249, 5⟩) rfl (by simp only [Slot.Interior]; decide), by decide +kernel, by decide,
    by decide +kernel, two_interiorAt (x := ⟨21969, 21969, 8⟩) rfl (by simp only [Slot.Interior]; decide),
    by decide +kernel, rfl, by decide +kernel⟩

/-- `BINIT` of the zeroed bank, then an update, a rate and a raw store into the slot beside. -/
theorem witness_SeededEstimatesStayInterior : two.cfg.WF ∧ two.cfg.prec0 = 15 ∧ two.cfg.prec1 = 15 ∧ two.Shape ∧
    seedsAt (.binit 1 32 0) 1 2 = true ∧ runs (exec (.binit 1 32 0) two) = true ∧
    (after (.binit 1 32 0) two).halt = false ∧
    (∀ k ∈ [Instr.pupd 1 0 2 false, .prate 1 0 2 0, .pset 1 0 1 0], storesRawAt k 1 2 = false ∧ copiesFrom k 1 2 = none) ∧
    runs (execAll [.pupd 1 0 2 false, .prate 1 0 2 0, .pset 1 0 1 0] (after (.binit 1 32 0) two)) = true :=
  ⟨config_wf, rfl, rfl, two_shape, by decide +kernel⟩

theorem witness_PsetThenPget : one.halt = false ∧
    one.slotAt (0 : BankNo).toNat ((0 : Half).toNat + (2 : Half).toNat) = some ⟨28077, 28077, 8⟩ := by decide +kernel

theorem witness_BinitIsPinitThenPrate : two.halt = false ∧ two.Shape ∧
    two.cfg.initRom[(0 : Half).toNat + (2 : Half).toNat]? = some ⟨216, 185, 154, 8⟩ ∧
    [(216 : Byte), 185, 154][(2 : Byte).toNat]? = some 154 ∧ runs (exec (.binit 1 32 2) two) = true ∧
    (after (.binit 1 32 2) two).halt = false ∧
    runs (execAll [.pinit 1 0 2 32 154, .prate 1 0 2 8] two) = true := ⟨rfl, two_shape, by decide +kernel⟩

/-- Snapshot bank 0 into bank 2, update it, copy back. -/
theorem witness_RollbackRestoresBank : two.halt = false ∧ (2 : BankNo) ≠ 0 ∧ runs (exec (.bcpy 2 0) two) = true ∧
    (after (.bcpy 2 0) two).halt = false ∧ writtenBank (.pupd 0 0 1 false) = some 0 ∧
    runs (execAll [.pupd 0 0 1 false] (after (.bcpy 2 0) two)) = true ∧
    (landed (execAll [.pupd 0 0 1 false] (after (.bcpy 2 0) two))).halt = false ∧
    runs (exec (.bcpy 0 2) (landed (execAll [.pupd 0 0 1 false] (after (.bcpy 2 0) two)))) = true := by decide +kernel

theorem witness_SaveThenLoadTransplantsStates : two.halt = false ∧ two.Shape ∧ two.MaskInvariant ∧
    two.liveAt (0 : BankNo).toNat = true ∧ two.liveAt (1 : BankNo).toNat = true ∧ (3 : Half).toNat = two.cfg.nctx ∧
    exec (.bsv 0 3) two = .next (answered two 0 0 [0x28092809, 0x55D155D1, 0x6DAD6DAD]) ∧
    runs (exec (.bld 1 [0x28092809, 0x55D155D1, 0x6DAD6DAD])
      (answered two 0 0 [0x28092809, 0x55D155D1, 0x6DAD6DAD])) = true := by
  refine ⟨rfl, two_shape, ?_, by decide +kernel, by decide +kernel, by decide +kernel, rfl, by decide +kernel⟩
  intro b i x hx
  refine forall_slotAt (fun bank hb => ?_) hx
  simp [two, withBanks] at hb
  have hI : ∀ x ∈ bankI.slots, x.Masked two.cfg := by simp only [Slot.Masked]; decide +kernel
  have hZ : ∀ x ∈ bankZ.slots, x.Masked two.cfg := by simp only [Slot.Masked]; decide +kernel
  rcases hb with rfl | rfl
  · exact hI
  · exact hZ

/-- Two groups, one of them empty, and a context in the last. -/
theorem witness_RegistrationIsContiguous : ([[], skipFlagGroup] : List (List ContextEntry)).flatten.length ≤ 65535 ∧
    ([[], skipFlagGroup] : List (List ContextEntry))[1]? = some skipFlagGroup ∧ 2 < skipFlagGroup.length := by decide

end Sys2Proof.Tests
end

section
/-! The frame of one command (10_state.md R31): no bank but the one it writes changes. -/

namespace Sys2Proof.Machine

variable {i : Instr} {s t : State}

/-- Writing one entry of the bank array leaves the entries under every other number. -/
theorem WroteBank.getElem?_banks_of_ne (h : WroteBank i s t) {b : Nat}
    (hb : ∀ d, writtenBank i = some d → d.toNat ≠ b) : t.banks[b]? = s.banks[b]? := by
  obtain ⟨_, d, o, hd, _, _, rfl⟩ := h
  rw [respond_banks, putBank_banks, List.getElem?_set_ne (hb d hd)]

/-- Settles O23: by `exec_next`, a command stops or only answers, and keeps every bank, or it writes the bank it names. -/
theorem banksAreIndependent : Obligations.BanksAreIndependent := by
  intro i s t h b hb
  rcases exec_next h with hs | ha | hw
  · rw [hs.banks_eq]
  · rw [ha.banks_eq]
  · exact hw.getElem?_banks_of_ne hb

end Sys2Proof.Machine
end

section
/-! The opcode table of the statements against the decoder (30_encoding.md R72, R73, R76), and commands no row takes (R77). -/

namespace Sys2Proof

/-- The payload length of the command's row, as a function of field `A` (R73). -/
def Opcode.rowPayload : Opcode → Nat → Nat
  | .pset, _ => 1
  | .grwr, _ => 1
  | .smrg, a => a
  | .bwin, a => a
  | .bld, a => a
  | _, _ => 0

/-- The command's row of the opcode table: its opcode byte and its reserved bits are fixed. -/
def Opcode.tableRow (op : Opcode) : TableRow where
  pattern := op.code ++ 0#56
  mask := 0xFF#8 ++ op.reserved.extractLsb' 0 56
  payload := op.rowPayload

theorem specTable_eq : specTable = Opcode.all.map Opcode.tableRow := rfl

theorem Opcode.mem_all (op : Opcode) : op ∈ Opcode.all := by cases op <;> decide

theorem Opcode.rowPayload_eq (op : Opcode) (cw : LongWord) :
    op.rowPayload (cw.toNat / 2 ^ 32 % 2 ^ 16) = op.payloadLength cw := by
  cases op <;> simp only [rowPayload, payloadLength, fieldA, toNat_slice]

theorem Opcode.reserved_eq (op : Opcode) : op.reserved = 0#8 ++ op.reserved.extractLsb' 0 56 := by
  cases op <;> rfl

/-- Two packed values are equal exactly when their parts are. -/
theorem append_eq_append {m n : Nat} {x x' : BitVec m} {y y' : BitVec n} : x ++ y = x' ++ y' ↔ x = x' ∧ y = y' := by
  constructor
  · intro h
    have hl := congrArg (BitVec.extractLsb' n m) h
    have hr := congrArg (BitVec.extractLsb' 0 n) h
    rw [BitVec.extractLsb'_append_eq_left, BitVec.extractLsb'_append_eq_left] at hl
    rw [BitVec.extractLsb'_append_eq_right, BitVec.extractLsb'_append_eq_right] at hr
    exact ⟨hl, hr⟩
  · rintro ⟨rfl, rfl⟩; rfl

/-- A word has the fixed bits of a row exactly when it has the row's opcode byte and zero in the reserved bits. -/
theorem Opcode.tableRow_matches_iff (op : Opcode) (cw : LongWord) :
    cw &&& op.tableRow.mask = op.tableRow.pattern ↔ fieldOpc cw = op.code ∧ cw &&& op.reserved = 0 := by
  have hcw : cw = fieldOpc cw ++ cw.extractLsb' 0 56 :=
    (BitVec.extractLsb'_append_extractLsb' (w := 8) (len := 56)).symm
  have hff : fieldOpc cw &&& 0xFF#8 = fieldOpc cw := BitVec.and_allOnes
  have hz : (0 : LongWord) = 0#8 ++ 0#56 := rfl
  calc cw &&& op.tableRow.mask = op.tableRow.pattern
    _ ↔ (fieldOpc cw ++ cw.extractLsb' 0 56) &&& (0xFF#8 ++ op.reserved.extractLsb' 0 56) = op.code ++ 0#56 := by
      rw [← hcw]; rfl
    _ ↔ fieldOpc cw = op.code ∧ cw.extractLsb' 0 56 &&& op.reserved.extractLsb' 0 56 = 0#56 := by
      rw [BitVec.and_append, append_eq_append, hff]
    _ ↔ fieldOpc cw = op.code ∧ cw &&& op.reserved = 0 := by
      refine and_congr_right fun _ => ?_
      conv_rhs => rw [hcw, op.reserved_eq, hz, BitVec.and_append, append_eq_append]
      simp

/-- A row takes a command exactly when the row's opcode accepts it in each check of the decoder. -/
theorem Opcode.tableRow_takes_iff (op : Opcode) (c : Command) :
    c.cw &&& op.tableRow.mask = op.tableRow.pattern ∧ c.pl.length = op.tableRow.payload (c.cw.toNat / 2 ^ 32 % 2 ^ 16) ↔
      fieldOpc c.cw = op.code ∧ c.cw &&& op.reserved = 0 ∧ ∃ i, op.assemble c.cw c.pl = .ok i := by
  have hlen : op.tableRow.payload (c.cw.toNat / 2 ^ 32 % 2 ^ 16) = op.payloadLength c.cw := op.rowPayload_eq c.cw
  rw [op.tableRow_matches_iff, hlen, assemble_ok, and_assoc]

/-- R76, R77: a command decodes exactly when a row of the opcode table takes it. -/
theorem inTable_iff_decodes (c : Command) : inTable c ↔ ∃ i, decode c = .ok i := by
  rw [inTable, specTable_eq]
  constructor
  · rintro ⟨row, hm, h⟩
    obtain ⟨op, -, rfl⟩ := List.mem_map.mp hm
    obtain ⟨hop, hz, i, ha⟩ := (op.tableRow_takes_iff c).mp h
    exact ⟨i, decode_ok.mpr ⟨op, hop, hz, ha⟩⟩
  · rintro ⟨i, hi⟩
    obtain ⟨op, hop, hz, ha⟩ := decode_ok.mp hi
    exact ⟨op.tableRow, List.mem_map_of_mem op.mem_all, (op.tableRow_takes_iff c).mpr ⟨hop, hz, i, ha⟩⟩

end Sys2Proof

namespace Sys2Proof.Machine

variable {s : State} {c : Command} {rest : List Input}

/-- A step takes the command that is presented first. -/
theorem step_command (h : s.inputs = .command c :: rest) : step s = runCommand c { s with inputs := rest } := by
  simp only [step, h]

theorem runCommand_of_decode {i : Instr} (h : decode c = .ok i) : runCommand c s = exec i s := by
  simp only [runCommand, h]

theorem runCommand_of_not_decodes (h : ¬∃ i, decode c = .ok i) : runCommand c s = rejectCommand c s := by
  unfold runCommand
  split
  · exact absurd ⟨_, ‹_›⟩ h
  · rfl

/-- `IllegalCommand` with the two halves of the command word as numbers (R211). -/
theorem rejectCommand_running (hr : s.halt = false) : rejectCommand c s =
    .next (faulted s 1 (BitVec.ofNat 32 (c.cw.toNat / 2 ^ 32)) (BitVec.ofNat 32 (c.cw.toNat % 2 ^ 32))) := by
  have h0 : c.cw.extractLsb' 32 32 = BitVec.ofNat 32 (c.cw.toNat / 2 ^ 32) :=
    BitVec.eq_of_toNat_eq (by rw [toNat_slice, BitVec.toNat_ofNat])
  have h1 : c.cw.extractLsb' 0 32 = BitVec.ofNat 32 (c.cw.toNat % 2 ^ 32) :=
    BitVec.eq_of_toNat_eq (by simp)
  rw [rejectCommand, whenRunning_running hr, raise_eq]
  simp only [Violation.code, Violation.info0, Violation.info1, h0, h1]

/-- Settles O6: the table and the decoder take the same commands (`inTable_iff_decodes`), and what does not decode is
rejected. -/
theorem unlistedCommandIsIllegal : Obligations.UnlistedCommandIsIllegal := by
  intro s c rest hr h
  rw [step_command h, inTable_iff_decodes]
  constructor
  · rintro ⟨i, hi⟩
    exact ⟨i, hi, runCommand_of_decode hi⟩
  · intro hn
    rw [runCommand_of_not_decodes hn]
    exact rejectCommand_running hr

end Sys2Proof.Machine
end

section
/-! The one response of a command (30_encoding.md R74, 60_exceptions.md R212, R214): its status, its data, its payload. -/

namespace Sys2Proof.Machine

variable {s t u : State} {i : Instr} {b : BankNo}

/-- The commands whose rule names no result: those that write a bank, and `BSV`, whose words are its payload (R74). -/
def NamesNoResult (i : Instr) : Prop := writtenBank i ≠ none ∨ ∃ b len, i = .bsv b len

/-- The command ends stopped, or with `RSP(OK, 0)` with any payload. -/
def EndsWithoutData (s : State) (r : Result) : Prop :=
  ∀ t, r = .next t → Stopped s t ∨ ∃ out, t.responses = s.responses ++ [⟨responseWord 0 0, out⟩]

namespace EndsWithoutData

theorem of_finish {out : List Word} (h : u.responses = s.responses) : EndsWithoutData s (finish u 0 out) := by
  rintro _ ⟨⟩
  exact .inr ⟨out, by rw [respond_responses, h]⟩

theorem of_raise {v : Violation} (hr : s.halt = false) : EndsWithoutData s (raise s v) :=
  fun _ h => .inl (raise_next hr h)

theorem of_whenRunning {r : Result} (hf : s.halt = false → EndsWithoutData s r) : EndsWithoutData s (whenRunning s r) :=
  fun t h => (whenRunning_next h).elim .inl fun ⟨hr, h⟩ => hf hr t h

theorem of_withBankNo {f : Option Bank → Result} (hr : s.halt = false) (hf : ∀ o, EndsWithoutData s (f o)) :
    EndsWithoutData s (withBankNo s b f) :=
  fun t h => (withBankNo_next hr h).elim .inl fun ⟨o, _, h⟩ => hf o t h

theorem of_withLive {o : Option Bank} {f : Bank → Result} (hr : s.halt = false)
    (hf : ∀ bank, EndsWithoutData s (f bank)) : EndsWithoutData s (withLive s b o f) :=
  fun t h => (withLive_next hr h).elim .inl fun ⟨bank, _, h⟩ => hf bank t h

theorem of_withBank {f : Bank → Result} (hf : s.halt = false → ∀ bank, EndsWithoutData s (f bank)) :
    EndsWithoutData s (withBank s b f) :=
  fun t h => (withBank_next h).elim .inl fun ⟨hr, bank, _, h⟩ => hf hr bank t h

theorem of_withSlot {off sub : Half} {f : Bank → Slot → Result}
    (hf : s.halt = false → ∀ bank p, EndsWithoutData s (f bank p)) : EndsWithoutData s (withSlot s b off sub f) :=
  fun t h => (withSlot_next h).elim .inl fun ⟨hr, bank, p, _, _, h⟩ => hf hr bank p t h

theorem of_withStat {k : Half} {f : Bank → Word → Result}
    (hf : s.halt = false → ∀ bank v, EndsWithoutData s (f bank v)) : EndsWithoutData s (withStat s b k f) :=
  fun t h => (withStat_next h).elim .inl fun ⟨hr, bank, v, _, _, h⟩ => hf hr bank v t h

theorem of_withSize {n : Nat} {f : Bank → Result} (hf : s.halt = false → ∀ bank, EndsWithoutData s (f bank)) :
    EndsWithoutData s (withSize s b n f) :=
  fun t h => (withSize_next h).elim .inl fun ⟨hr, bank, _, _, h⟩ => hf hr bank t h

end EndsWithoutData

open EndsWithoutData

/-- A command whose rule names no result delivers no data. -/
theorem exec_endsWithoutData (s : State) (hi : NamesNoResult i) : EndsWithoutData s (exec i s) := by
  cases i with
  | pinit => exact of_withSlot fun _ _ _ => of_finish rfl
  | prate =>
    refine of_withSlot fun hr _ _ => ?_
    split
    · exact of_finish rfl
    · exact of_raise hr
  | pupd =>
    refine of_withSlot fun hr _ _ => ?_
    split
    · exact of_raise hr
    · exact of_finish rfl
  | pset => exact of_withSlot fun _ _ _ => of_finish rfl
  | bnew => exact of_whenRunning fun hr => of_withBankNo hr fun _ => of_finish rfl
  | bfree => exact of_whenRunning fun hr => of_withBankNo hr fun _ => of_finish rfl
  | binit =>
    refine of_withBank fun hr _ => ?_
    split
    · exact of_raise hr
    split
    · exact of_raise hr
    · exact of_finish rfl
  | bcpy =>
    exact of_whenRunning fun hr => of_withBankNo hr fun _ => of_withBankNo hr fun _ => of_finish (by split <;> rfl)
  | bcpr =>
    refine of_whenRunning fun hr => of_withBankNo hr fun _ => of_withBankNo hr fun _ =>
      of_withLive hr fun _ => of_withLive hr fun _ => ?_
    split
    · exact of_finish (by split <;> rfl)
    · exact of_raise hr
  | bwin =>
    refine of_withSize fun hr _ => ?_
    split
    · exact of_raise hr
    · exact of_finish rfl
  | bld => exact of_withSize fun _ _ => of_finish rfl
  | bsv => exact of_withSize fun _ _ => of_finish rfl
  | grwr => exact of_withStat fun _ _ _ => of_finish rfl
  | _ => simp [NamesNoResult, writtenBank] at hi

theorem responseWord_inj {st st' : Byte} {data data' : Word} :
    responseWord st data = responseWord st' data' ↔ st = st' ∧ data = data' := by
  refine append_eq_append.trans (and_congr_left' ?_)
  rw [append_eq_append, and_iff_left rfl]

/-- A command whose rule names no result, where it only answers, answers with data 0. -/
theorem NamesNoResult.data_eq_zero {data : Word} {out : List Word} (hi : NamesNoResult i)
    (h : exec i s = .next (s.respond 0 data out)) : Stopped s (s.respond 0 data out) ∨ data = 0 := by
  refine (exec_endsWithoutData s hi _ h).imp id fun ⟨out', hr⟩ => ?_
  rw [respond_responses, List.append_cancel_left_eq] at hr
  simp only [List.cons.injEq, Response.mk.injEq, responseWord_inj] at hr
  exact hr.1.1.2

/-- What the responses and the status registers are after a command that completes (R74). -/
def Completed (i : Instr) (s t : State) : Prop :=
  ∃ data out, t.responses = s.responses ++ [rsp 0 data out] ∧ t.fcode = s.fcode ∧ t.halt = s.halt ∧
    (NamesNoResult i → data = 0) ∧ (out ≠ [] → ∃ b len, i = .bsv b len)

theorem exec_completed (h : exec i s = .next t) : Stopped s t ∨ Completed i s t := by
  rcases exec_next h with hs | ⟨data, out, rfl, ho⟩ | ⟨_, d, o, _, _, _, rfl⟩
  · exact .inl hs
  · by_cases hs : Stopped s (s.respond 0 data out)
    · exact .inl hs
    · exact .inr ⟨data, out, by rw [respond_responses, response_eq_rsp], rfl, rfl,
        fun hi => (hi.data_eq_zero h).resolve_left hs, ho.resolve_left⟩
  · exact .inr ⟨0, [], by rw [respond_responses, putBank_responses, response_eq_rsp], rfl, rfl, fun _ => rfl,
      fun h => absurd rfl h⟩

theorem runCommand_completed {c : Command} (h : runCommand c s = .next t) :
    Stopped s t ∨ ∃ i, decode c = .ok i ∧ Completed i s t := by
  rcases runCommand_next h with hs | ⟨i, hi, _⟩
  · exact .inl hs
  · rw [runCommand_of_decode hi] at h
    exact (exec_completed h).imp id fun hc => ⟨i, hi, hc⟩

/-- A command that stops adds one response with no payload: 0xFF and `FCODE` when it was halted, else a fault's code and
`FINFO0` (R212, R214). -/
theorem Stopped.response (h : Stopped s t) : ∃ st data, t.responses = s.responses ++ [rsp st data []] ∧
    (1 ≤ st.toNat ∧ st.toNat ≤ 10 ∧ t.fcode = st ∧ t.finfo0 = data ∧ t.halt = true ∧ s.halt = false ∨
      st = 0xFF ∧ s.halt = true ∧ data = BitVec.ofNat 32 s.fcode.toNat) := by
  rcases h with ⟨hh, rfl⟩ | ⟨hr, v, rfl⟩
  · exact ⟨0xFF, _, by rw [respond_responses, response_eq_rsp], .inr ⟨rfl, hh, setWidth_eq_ofNat _⟩⟩
  · exact ⟨v.code, v.info0, by rw [enterFault_responses, response_eq_rsp],
      .inl ⟨v.code_range.1, v.code_range.2, rfl, rfl, rfl, hr⟩⟩

/-- Settles O13: a command stops, answering as `Stopped.response` says, or completes with the fields of `Completed`. -/
theorem oneResponsePerCommand : Obligations.OneResponsePerCommand := by
  intro s t c rest hin hstep
  rw [step_command hin] at hstep
  rcases runCommand_completed hstep with hs | ⟨i, hi, data, out, hr, hf, hh, hd, ho⟩
  · obtain ⟨st, data, hr, hst⟩ := hs.response
    have hne : st ≠ 0 := by
      rcases hst with ⟨h1, _⟩ | ⟨rfl, _⟩
      · rintro rfl; exact absurd h1 (by decide)
      · decide
    exact ⟨st, data, [], hr, .inr hst, fun _ h0 => absurd h0 hne, fun h => absurd rfl h⟩
  · refine ⟨0, data, out, hr, .inl ⟨rfl, hf, hh⟩, fun j _ hj hn => ?_, fun h => ⟨rfl, ?_⟩⟩
    · cases hi.symm.trans hj
      exact hd hn
    · obtain ⟨b, len, rfl⟩ := ho h
      exact ⟨b, len, hi⟩

end Sys2Proof.Machine
end

section
/-! The common checks of the format-S commands (41_probability_model.md R100) and the frame of the slot they address. -/

namespace Sys2Proof.Machine

variable {s t : State} {i : Instr} {b : BankNo} {off sub : Half}

/-- R212: a halted PME answers 0xFF and `FCODE`. -/
theorem whenRunning_halted (hh : s.halt = true) (r : Result) :
    whenRunning s r = .next (answered s 0xFF (BitVec.ofNat 32 s.fcode.toNat) []) := by
  rw [whenRunning, if_pos hh, refuseHalted, respond_eq_answered, setWidth_eq_ofNat]

/-- `BadBank(b, NBANK)` with its information words as numbers (R211). -/
theorem raise_badBank (b : BankNo) (n : Nat) :
    raise s (.badBank b n) = .next (faulted s 2 (BitVec.ofNat 32 b.toNat) (BitVec.ofNat 32 n)) := by
  rw [raise_eq]
  simp only [Violation.code, Violation.info0, Violation.info1, setWidth_eq_ofNat]

/-- `DummyContext(b, 0)` with its information words as numbers (R211). -/
theorem raise_dummyContext (b : BankNo) :
    raise s (.dummyContext b) = .next (faulted s 3 (BitVec.ofNat 32 b.toNat) 0) := by
  rw [raise_eq]
  simp only [Violation.code, Violation.info0, Violation.info1, setWidth_eq_ofNat]

/-- `BadRate(index, rate)` with its information words as numbers (R211). -/
theorem raise_badRate (index : Nat) (rate : Byte) :
    raise s (.badRate index rate) = .next (faulted s 7 (BitVec.ofNat 32 index) (BitVec.ofNat 32 rate.toNat)) := by
  rw [raise_eq]
  simp only [Violation.code, Violation.info0, Violation.info1, setWidth_eq_ofNat]

theorem withSlot_badIndex {bank : Bank} (hr : s.halt = false) (hb : s.bankAt b.toNat = some bank)
    (hi : bank.slots.length ≤ off.toNat + sub.toNat) (f : Bank → Slot → Result) :
    withSlot s b off sub f = raise s (.badIndex (slotIndex off sub) s.cfg.nctx) := by
  rw [withSlot, withBank_of_bankAt hr hb, slotIndex, List.getElem?_eq_none hi]

/-- What a format-S command does once the checks have passed: it answers, raises a violation, or writes the slot. -/
inductive SlotBody (s : State) (b : BankNo) (off sub : Half) (bank : Bank) : Result → Prop
  | answers (data : Word) (out : List Word) : SlotBody s b off sub bank (finish s data out)
  | raises (v : Violation) : SlotBody s b off sub bank (raise s v)
  | writes (q : Slot) : SlotBody s b off sub bank (done (s.putSlot b bank off sub q))

/-- Every format-S command is the checks of R100 in front of a body of its own. -/
theorem exec_eq_withSlot (s : State) (h : slotAddress i = some (b, off, sub)) :
    ∃ f, exec i s = withSlot s b off sub f ∧ ∀ bank p, SlotBody s b off sub bank (f bank p) := by
  cases i with
  | pinit => cases h; exact ⟨_, rfl, fun _ _ => .writes _⟩
  | prate =>
    cases h
    refine ⟨_, rfl, fun _ _ => ?_⟩
    split
    · exact .writes _
    · exact .raises _
  | pupd =>
    cases h
    refine ⟨_, rfl, fun _ _ => ?_⟩
    split
    · exact .raises _
    · exact .writes _
  | pget => cases h; exact ⟨_, rfl, fun _ _ => .answers _ _⟩
  | pset => cases h; exact ⟨_, rfl, fun _ _ => .writes _⟩
  | pest => cases h; exact ⟨_, rfl, fun _ _ => .answers _ _⟩
  | pqry => cases h; exact ⟨_, rfl, fun _ _ => .answers _ _⟩
  | _ => cases h

/-- A command that wrote one slot left every slot with another address. -/
theorem CompletesOnSlot.slotAt_of_ne {n j m k : Nat} {q : Slot} (h : CompletesOnSlot s t m k q) (hne : n ≠ m ∨ j ≠ k) :
    t.slotAt n j = s.slotAt n j := by
  obtain ⟨_, ⟨_, _, _, _, hbanks⟩, _, hslots, _⟩ := h
  by_cases hn : n = m
  · subst hn
    exact hslots j (hne.resolve_left fun h => h rfl)
  · rw [State.slotAt, State.slotAt, hbanks n hn]

/-- Whatever the body does, it leaves every slot with another address. -/
theorem SlotBody.slotAt_of_ne {bank : Bank} {p : Slot} {r : Result} {n j : Nat} (h : SlotBody s b off sub bank r)
    (hb : s.bankAt b.toNat = some bank) (hp : bank.slots[off.toNat + sub.toNat]? = some p) (hr : r = .next t)
    (hne : n ≠ b.toNat ∨ j ≠ off.toNat + sub.toNat) : t.slotAt n j = s.slotAt n j := by
  cases h with
  | answers => cases hr; rfl
  | raises => cases hr; rfl
  | writes q => cases hr; exact (completesOnSlot_putSlot hb hp q).slotAt_of_ne hne

/-- R100: no slot but the one addressed is touched. -/
theorem exec_slotAt_of_ne {n j : Nat} (hi : slotAddress i = some (b, off, sub)) (h : exec i s = .next t)
    (hne : n ≠ b.toNat ∨ j ≠ off.toNat + sub.toNat) : t.slotAt n j = s.slotAt n j := by
  obtain ⟨f, hf, hbody⟩ := exec_eq_withSlot s hi
  rw [hf] at h
  rcases withSlot_next h with hs | ⟨_, bank, p, hb, hp, h⟩
  · exact slotAt_congr hs.banks_eq n j
  · exact (hbody bank p).slotAt_of_ne hb hp h hne

/-- Settles O27: a format-S command is `withSlot` (`exec_eq_withSlot`), whose checks fail in order; the frame is
`exec_slotAt_of_ne`. -/
theorem slotCommandsCheckInOrder : Obligations.SlotCommandsCheckInOrder := by
  intro i s b off sub hi hs
  refine ⟨fun hh => ?halted, fun hr hb => ?badBank, fun hr hb hl => ?dummy, fun hr hl hidx => ?badIndex,
    fun t h n j hne => exec_slotAt_of_ne hi h hne⟩
  all_goals
    obtain ⟨f, hf, -⟩ := exec_eq_withSlot s hi
    rw [hf]
  case halted => rw [withSlot, withBank, whenRunning_halted hh]
  case badBank => rw [withSlot, withBank_badBank hr (hs.bank_count ▸ hb), raise_badBank]
  case dummy => rw [withSlot, withBank_dummy hr (hs.bank_count ▸ hb) hl, raise_dummyContext]
  case badIndex =>
    obtain ⟨bank, hbank⟩ := liveAt_eq_true hl
    rw [withSlot_badIndex hr hbank (hs.slots hbank ▸ hidx), raise_eq]
    rfl

end Sys2Proof.Machine
end

section
/-! PINIT, PRATE, PGET and PSET on a slot that is there (41_probability_model.md R102, R106, R113, R114). -/

namespace Sys2Proof.Machine

variable {s : State} {b : BankNo} {off sub : Half} {p : Slot} {c : Config}

/-! ### The checks passed -/

/-- The body runs on the slot addressed, and on the bank that holds it. -/
theorem withSlot_of_body {f : Bank → Slot → Result} {r : Result} (hr : s.halt = false)
    (hp : s.slotAt b.toNat (off.toNat + sub.toNat) = some p) (hf : ∀ bank, f bank p = r) : withSlot s b off sub f = r := by
  obtain ⟨bank, hb, hg⟩ := slotAt_eq_some hp
  rw [withSlot_of_slotAt hr hb hg, hf]

/-- A body that writes the slot addressed completes on that slot. -/
theorem withSlot_completes {f : Bank → Slot → Result} {q : Slot} (hr : s.halt = false)
    (hp : s.slotAt b.toNat (off.toNat + sub.toNat) = some p)
    (hf : ∀ bank, f bank p = done (s.putSlot b bank off sub q)) :
    ∃ t, withSlot s b off sub f = .next t ∧ CompletesOnSlot s t b.toNat (off.toNat + sub.toNat) q := by
  obtain ⟨bank, hb, hg⟩ := slotAt_eq_some hp
  exact ⟨_, by rw [withSlot_of_slotAt hr hb hg, hf]; rfl, completesOnSlot_putSlot hb hg q⟩

/-! ### Masks (R6) -/

/-- Masking a field is the masking of its number. -/
theorem and_fieldMask_eq_masked (v : Estimate) (prec : Nat) : v &&& fieldMask prec = masked v.toNat prec := by
  have hm : fieldMask prec = BitVec.ofNat 15 (maskOf prec) := by rw [fieldMask, maskOf, Nat.shiftLeft_eq]
  rw [masked, BitVec.ofNat_and, BitVec.ofNat_toNat, BitVec.setWidth_eq, hm]

/-! ### The seed arithmetic of PINIT (R101, R102) -/

/-- `clip` is a maximum of a minimum where the bounds are in order. -/
theorem clip_eq_max_min {lo hi : Int} (h : lo ≤ hi) (x : Int) : clip x lo hi = max lo (min x hi) := by
  unfold clip
  split
  · omega
  · split <;> omega

theorem clippedQp_eq (c : Config) (qp : Byte) : clippedQp c qp = max 0 (min qp.toInt c.qpMax) :=
  clip_eq_max_min (Int.natCast_nonneg _) _

theorem seedSlope_eq (seed : Byte) : seedSlope seed = (seed.toNat / 16 : Nat) * 5 - 45 := by
  have := seed.isLt
  rw [seedSlope, toNat_slice]
  omega

theorem seedOffset_eq (seed : Byte) : seedOffset seed = (seed.toNat % 16 : Nat) * 8 - 16 := by
  rw [seedOffset, toNat_slice, Nat.pow_zero, Nat.div_one]
  rfl

/-- The shift of the raw index is a division that rounds toward minus infinity (R103). -/
theorem rawStateIndex_eq (c : Config) (qp seed : Byte) :
    rawStateIndex c qp seed = seedSlope seed * clippedQp c qp / 16 + seedOffset seed := by
  rw [rawStateIndex, Int.shiftRight_eq_div_pow]
  rfl

/-- The 7-bit index is the clamped raw index: it does not wrap. -/
theorem initialStateIndex_toNat (c : Config) (qp seed : Byte) :
    (initialStateIndex c qp seed).toNat = (max 0 (min 127 (rawStateIndex c qp seed))).toNat := by
  rw [initialStateIndex, clip_eq_max_min (by decide), min_comm, BitVec.toNat_ofInt]
  omega

/-- R102: the table count that PINIT takes is the one the arithmetic of R101 and R102 names. -/
theorem seedCount_initialCount (c : Config) (qp seed : Byte) : SeedCount c qp seed (initialCount c qp seed) := by
  simp only [SeedCount, ← clippedQp_eq, ← seedSlope_eq, ← seedOffset_eq, ← rawStateIndex_eq, ← initialStateIndex_toNat]
  exact Vector.getElem?_eq_getElem _

/-- Seeding masks the count in both fields (R102). -/
theorem seedSlot_eq (c : Config) (qp seed : Byte) (p : Slot) : seedSlot c qp seed p =
    ⟨masked (initialCount c qp seed).toNat c.prec0, masked (initialCount c qp seed).toNat c.prec1, p.w⟩ := by
  rw [seedSlot, and_fieldMask_eq_masked, and_fieldMask_eq_masked]

/-- Settles O29: the body of PINIT writes the seeded slot, and its count is `seedCount_initialCount`. -/
theorem pinitSeedsSlot : Obligations.PinitSeedsSlot := by
  intro s b off sub qp seed p hr hp
  obtain ⟨t, ht, hc⟩ : ∃ t, execPinit b off sub qp seed s = .next t ∧
      CompletesOnSlot s t b.toNat (off.toNat + sub.toNat) (seedSlot s.cfg qp seed p) :=
    withSlot_completes hr hp fun _ => rfl
  rw [seedSlot_eq] at hc
  exact ⟨t, initialCount s.cfg qp seed, ht, seedCount_initialCount s.cfg qp seed, hc⟩

/-! ### Rates (R106) -/

theorem validRate_eq (w : Byte) {o : Option RatePair} (h : c.ratePairs[w.toNat]? = some o) :
    validRate c w = o.isSome := by
  rw [validRate, ratePair, (Vector.getElem?_eq_some_iff.mp h).2]

/-- Settles O30: the body of PRATE raises `BadRate` or writes the rate, as `validRate_eq` decides. -/
theorem prateSetsRate : Obligations.PrateSetsRate := by
  intro s b off sub rate p hr hp
  constructor
  · intro hn
    rw [← raise_badRate]
    exact withSlot_of_body hr hp fun _ => if_neg (by simp [validRate_eq rate hn])
  · intro pair hs
    exact withSlot_completes hr hp fun _ => if_pos (validRate_eq rate hs)

/-! ### State words (R113, R114) -/

/-- Settles O32: the body of PGET answers the state word, read as a number by `stateWord_eq`. -/
theorem pgetReturnsStateWord : Obligations.PgetReturnsStateWord := by
  intro s b off sub p hr hp
  rw [← stateWord_eq, ← finish_eq]
  exact withSlot_of_body hr hp fun _ => rfl

/-- Storing a word masks the numbers in bits 14..0 and 30..16 (R25). -/
theorem storeWord_eq (c : Config) (word : Word) (p : Slot) : storeWord c word p =
    ⟨masked (word.toNat % 2 ^ 15) c.prec0, masked (word.toNat / 2 ^ 16 % 2 ^ 15) c.prec1, p.w⟩ := by
  rw [storeWord, and_fieldMask_eq_masked, and_fieldMask_eq_masked, toNat_slice, toNat_slice, Nat.pow_zero, Nat.div_one]

/-- Settles O33: the body of PSET writes the slot with the word stored, which `storeWord_eq` reads as numbers. -/
theorem psetStoresMaskedWord : Obligations.PsetStoresMaskedWord := by
  intro s b off sub word p hr hp
  rw [← storeWord_eq]
  exact withSlot_completes hr hp fun _ => rfl

end Sys2Proof.Machine
end

section
/-! The definition-table commands TGET, TCNT and TGRP (42_context_catalog.md R135 to R138). -/

namespace Sys2Proof.Machine

variable {s : State} {off sub g : Half} {initId : Byte} {row : RomRow} {e : ContextEntry}

/-! ### TGET (R135) -/

/-- R138: the id is the number of its row; there are four. -/
theorem romRow_eq (initId : Byte) : romRow initId = [RomRow.seedI, .seedP, .seedB, .rate][initId.toNat]? := by
  unfold romRow
  split
  · subst initId; rfl
  split
  · subst initId; rfl
  split
  · subst initId; rfl
  split
  · subst initId; rfl
  · have h4 : 4 ≤ initId.toNat := by bv_omega
    exact (List.getElem?_eq_none h4).symm

/-- The byte an id selects in a column, the four bytes taken in the order of the rows. -/
theorem map_romByte_romRow (initId : Byte) (e : ContextEntry) :
    (romRow initId).map (romByte · e) = [e.seedI, e.seedP, e.seedB, e.rate][initId.toNat]? := by
  rw [romRow_eq, ← List.getElem?_map]
  rfl

theorem exec_tget_badInitId (hr : s.halt = false) (hrow : romRow initId = none) :
    exec (.tget off sub initId) s = raise s (.badInitId initId) := by
  simp only [exec, execTget, whenRunning_running hr, hrow]

theorem exec_tget_badIndex (hr : s.halt = false) (hrow : romRow initId = some row)
    (hidx : s.cfg.initRom[off.toNat + sub.toNat]? = none) :
    exec (.tget off sub initId) s = raise s (.badIndex (off.toNat + sub.toNat) s.cfg.nctx) := by
  simp only [exec, execTget, whenRunning_running hr, hrow, slotIndex, hidx]

theorem exec_tget_byte (hr : s.halt = false) (hrow : romRow initId = some row)
    (he : s.cfg.initRom[off.toNat + sub.toNat]? = some e) :
    exec (.tget off sub initId) s = finish s ((romByte row e).setWidth 32) [] := by
  simp only [exec, execTget, whenRunning_running hr, hrow, slotIndex, he]

/-- `BadInitId(initId, 0)` with its information words as numbers (R211). -/
theorem raise_badInitId (initId : Byte) :
    raise s (.badInitId initId) = .next (faulted s 5 (BitVec.ofNat 32 initId.toNat) 0) := by
  rw [raise_eq]
  simp only [Violation.code, Violation.info0, Violation.info1, setWidth_eq_ofNat]

/-- Settles O36: `romRow_eq` decides between `BadInitId` and a row, the length of the ROM between `BadIndex` and a byte of
that row, which `map_romByte_romRow` names. -/
theorem tgetReadsRom : Obligations.TgetReadsRom := by
  intro s off sub initId hr
  refine ⟨fun hid => ?badInitId, fun hid hidx => ?badIndex, fun e v he hv => ?byte⟩
  case badInitId =>
    rw [exec_tget_badInitId hr ((romRow_eq initId).trans (List.getElem?_eq_none hid)), raise_badInitId]
  case badIndex =>
    rw [exec_tget_badIndex hr ((romRow_eq initId).trans (List.getElem?_eq_getElem hid)) (List.getElem?_eq_none hidx),
      raise_eq]
    rfl
  case byte =>
    rw [← map_romByte_romRow, Option.map_eq_some_iff] at hv
    obtain ⟨row, hrow, rfl⟩ := hv
    rw [exec_tget_byte hr hrow he, setWidth_eq_ofNat, finish_eq]

/-! ### TCNT (R136) -/

/-- Settles O37: a running TCNT only answers. -/
theorem tcntReturnsContextCount : Obligations.TcntReturnsContextCount := by
  intro s hr
  rw [← finish_eq]
  exact whenRunning_running hr _

/-! ### TGRP (R137) -/

theorem exec_tgrp_badGroup (hr : s.halt = false) (hg : s.cfg.groups[g.toNat]? = none) :
    exec (.tgrp g) s = raise s (.badGroup g s.cfg.ngrp) := by
  simp only [exec, execTgrp, whenRunning_running hr, hg]

theorem exec_tgrp_set {set : ContextSet} (hr : s.halt = false) (hg : s.cfg.groups[g.toNat]? = some set) :
    exec (.tgrp g) s = finish s (wordOfSet set) [] := by
  simp only [exec, execTgrp, whenRunning_running hr, hg]

/-- Settles O38: the number of groups decides between `BadGroup` and the set word, read as a number by `wordOfSet_eq`. -/
theorem tgrpReturnsHandle : Obligations.TgrpReturnsHandle := by
  intro s g hr
  refine ⟨fun hg => ?badGroup, fun set hset => ?handle⟩
  case badGroup =>
    rw [exec_tgrp_badGroup hr (List.getElem?_eq_none hg), raise_eq]
    simp only [Violation.code, Violation.info0, Violation.info1, setWidth_eq_ofNat]
  case handle => rw [exec_tgrp_set hr hset, wordOfSet_eq, finish_eq]

end Sys2Proof.Machine
end

section
/-! SMRG, the bounding union of context sets (42_context_catalog.md R140). -/

namespace Sys2Proof.Machine

variable {s : State} {sets before after ws : List Word} {w bad : Word} {c : Config} {lo hi : Nat}

/-! ### The union as a least offset and a greatest end -/

theorem setEnd_setOfWord (w : Word) : setEnd (setOfWord w) = w.toNat % 2 ^ 16 + w.toNat / 2 ^ 16 := by
  rw [setEnd, setOfWord_offset, setOfWord_size]

theorem min?_map_offset (w : Word) (ws : List Word) :
    ((w :: ws).map fun v => v.toNat % 2 ^ 16).min? = some (mergeLow w ws) := by
  simp only [← setOfWord_offset, List.map_cons, List.min?_cons', List.foldl_map, mergeLow]

theorem max?_map_end (w : Word) (ws : List Word) :
    ((w :: ws).map fun v => v.toNat % 2 ^ 16 + v.toNat / 2 ^ 16).max? = some (mergeHigh w ws) := by
  simp only [← setEnd_setOfWord, List.map_cons, List.max?_cons', List.foldl_map, mergeHigh]

/-- `lo` is the offset that some set has and no set is below. -/
theorem mergeLow_eq (hmem : ∃ v ∈ w :: ws, v.toNat % 2 ^ 16 = lo) (hle : ∀ v ∈ w :: ws, lo ≤ v.toNat % 2 ^ 16) :
    mergeLow w ws = lo := by
  refine Option.some.inj ((min?_map_offset w ws).symm.trans (List.min?_eq_some_iff.mpr ⟨List.mem_map.mpr hmem, ?_⟩))
  exact List.forall_mem_map.mpr hle

/-- `hi` is the end that some set has and no set is above. -/
theorem mergeHigh_eq (hmem : ∃ v ∈ w :: ws, v.toNat % 2 ^ 16 + v.toNat / 2 ^ 16 = hi)
    (hle : ∀ v ∈ w :: ws, v.toNat % 2 ^ 16 + v.toNat / 2 ^ 16 ≤ hi) : mergeHigh w ws = hi := by
  refine Option.some.inj ((max?_map_end w ws).symm.trans (List.max?_eq_some_iff.mpr ⟨List.mem_map.mpr hmem, ?_⟩))
  exact List.forall_mem_map.mpr hle

/-- The merged word as a number, where its two fields fit in 16 bits. -/
theorem mergedWord_eq (hlo : mergeLow w ws < 2 ^ 16) (hhi : mergeHigh w ws < 2 ^ 16) : mergedWord w ws =
    BitVec.ofNat 32 ((mergeHigh w ws - mergeLow w ws) * 2 ^ 16 + mergeLow w ws) := by
  rw [mergedWord, wordOfSet_eq, BitVec.toNat_ofNat, BitVec.toNat_ofNat, Nat.mod_eq_of_lt hlo,
    Nat.mod_eq_of_lt ((Nat.sub_le _ _).trans_lt hhi)]

/-! ### The search for an invalid set -/

theorem validSet_iff (c : Config) (w : Word) :
    validSet c w = true ↔ w.toNat % 2 ^ 16 + w.toNat / 2 ^ 16 ≤ c.nctx := by
  rw [validSet, setEnd_setOfWord, decide_eq_true_iff]

/-- The first invalid set is found behind valid ones. -/
theorem find?_invalid_eq_some (hb : ∀ v ∈ before, v.toNat % 2 ^ 16 + v.toNat / 2 ^ 16 ≤ c.nctx)
    (hbad : c.nctx < bad.toNat % 2 ^ 16 + bad.toNat / 2 ^ 16) :
    (before ++ bad :: after).find? (fun v => !validSet c v) = some bad := by
  refine List.find?_eq_some_iff_append.mpr ⟨?_, before, after, rfl, fun v hv => ?_⟩
  · rw [Bool.not_eq_true', Bool.eq_false_iff, ne_eq, validSet_iff]
    exact hbad.not_ge
  · rw [Bool.not_not, validSet_iff]
    exact hb v hv

theorem find?_invalid_eq_none (h : ∀ v ∈ sets, v.toNat % 2 ^ 16 + v.toNat / 2 ^ 16 ≤ c.nctx) :
    sets.find? (fun v => !validSet c v) = none := by
  refine List.find?_eq_none.mpr fun v hv => ?_
  rw [Bool.not_eq_true', Bool.not_eq_false, validSet_iff]
  exact h v hv

/-! ### The three outcomes -/

theorem exec_smrg_nil (hr : s.halt = false) : exec (.smrg []) s = raiseIllegal s (.smrg []) :=
  whenRunning_running hr _

theorem exec_smrg_badSet (hr : s.halt = false) (h : sets.find? (fun v => !validSet s.cfg v) = some bad) :
    exec (.smrg sets) s = raise s (.badSet bad s.cfg.nctx) := by
  cases sets with
  | nil => cases h
  | cons w ws => simp only [exec, execSmrg, whenRunning_running hr, h]

theorem exec_smrg_merged (hr : s.halt = false) (h : (w :: ws).find? (fun v => !validSet s.cfg v) = none) :
    exec (.smrg (w :: ws)) s = finish s (mergedWord w ws) [] := by
  simp only [exec, execSmrg, whenRunning_running hr, h]

/-- Settles O39: the search finds the first invalid set or none, and then the merged word is made of the least offset and
the greatest end, which 16 bits hold since `NCTX` is at most 65535. -/
theorem smrgReturnsBoundingUnion : Obligations.SmrgReturnsBoundingUnion := by
  intro s sets hr hwf
  refine ⟨?empty, fun before bad after hsets hb hbad => ?badSet, fun lo hi hvalid hlo hlow hhi hhigh => ?union⟩
  case empty =>
    rintro rfl
    rw [exec_smrg_nil hr, raiseIllegal, raise_eq]
    rfl
  case badSet =>
    rw [hsets, exec_smrg_badSet hr (find?_invalid_eq_some hb hbad), raise_eq]
    rfl
  case union =>
    cases sets with
    | nil => simp at hlo
    | cons w ws =>
      have hl : mergeLow w ws = lo := mergeLow_eq hlo hlow
      have hh : mergeHigh w ws = hi := mergeHigh_eq hhi hhigh
      have hlt : lo < 2 ^ 16 := (hlow w List.mem_cons_self).trans_lt (Nat.mod_lt _ (by decide))
      have hht : hi < 2 ^ 16 := by
        obtain ⟨v, hv, rfl⟩ := hhi
        exact ((hvalid v hv).trans hwf.nctx_range.2).trans_lt (by decide)
      rw [exec_smrg_merged hr (find?_invalid_eq_none hvalid), mergedWord_eq (hl ▸ hlt) (hh ▸ hht), hl, hh, finish_eq]

end Sys2Proof.Machine
end

section
/-! Registration of the context groups (42_context_catalog.md R130). -/

namespace Sys2Proof.Machine

variable {reg : List (List ContextEntry)} {g start : Nat} {group : List ContextEntry}

theorem length_groupsFrom (start : Nat) (reg : List (List ContextEntry)) :
    (groupsFrom start reg).length = reg.length := by
  induction reg generalizing start with
  | nil => rfl
  | cons group reg ih => rw [groupsFrom, List.length_cons, List.length_cons, ih]

/-- Each group starts behind all the contexts registered before it. -/
theorem getElem?_groupsFrom (h : reg[g]? = some group) : (groupsFrom start reg)[g]? =
    some ⟨BitVec.ofNat 16 (start + ((reg.take g).map List.length).sum), BitVec.ofNat 16 group.length⟩ := by
  induction reg generalizing start g with
  | nil => cases h
  | cons first reg ih =>
    cases g with
    | zero => cases h; rfl
    | succ g =>
      rw [List.getElem?_cons_succ] at h
      rw [groupsFrom, List.getElem?_cons_succ, ih h, List.take_succ_cons, List.map_cons, List.sum_cons, Nat.add_assoc]

/-- While every offset fits in 16 bits, each group ends where the next one starts. -/
theorem contiguous_groupsFrom (h : start + reg.flatten.length < 2 ^ 16) :
    contiguous start (start + reg.flatten.length) (groupsFrom start reg) := by
  induction reg generalizing start with
  | nil => rfl
  | cons group reg ih =>
    rw [List.flatten_cons, List.length_append, ← Nat.add_assoc] at h ⊢
    have hstart : (BitVec.ofNat 16 start).toNat = start := Nat.mod_eq_of_lt (by omega)
    have hsize : (BitVec.ofNat 16 group.length).toNat = group.length := Nat.mod_eq_of_lt (by omega)
    refine ⟨hstart, ?_⟩
    rw [hsize]
    exact ih h

/-- The columns registered before a group, its own, and those after it. -/
theorem flatten_eq_append (h : reg[g]? = some group) :
    reg.flatten = (reg.take g).flatten ++ (group ++ (reg.drop (g + 1)).flatten) := by
  obtain ⟨hg, rfl⟩ := List.getElem?_eq_some_iff.mp h
  rw [← List.flatten_cons, List.getElem_cons_drop hg, ← List.flatten_append, List.take_append_drop]

/-- Settles O59: the groups by `contiguous_groupsFrom` and `getElem?_groupsFrom`, the columns by `flatten_eq_append`. -/
theorem registrationIsContiguous : Obligations.RegistrationIsContiguous := by
  intro c reg hlen
  refine ⟨length_groupsFrom 0 reg, List.length_flatten, ?contiguous, fun g group hg => ?group⟩
  case contiguous =>
    have hc := contiguous_groupsFrom (start := 0) (reg := reg) (by omega)
    rwa [Nat.zero_add] at hc
  case group =>
    have hflat := flatten_eq_append hg
    rw [hflat, List.length_append, List.length_append] at hlen
    rw [← List.length_flatten]
    refine ⟨_, (getElem?_groupsFrom hg).trans (by rw [Nat.zero_add, ← List.length_flatten]), ?_, ?_, fun j hj => ?_⟩
    · exact Nat.mod_eq_of_lt (by omega)
    · exact Nat.mod_eq_of_lt (by omega)
    · rw [BitVec.toNat_ofNat, Nat.mod_eq_of_lt (by omega)]
      change reg.flatten[_]? = _
      rw [hflat, List.getElem?_append_right (Nat.le_add_right _ _), Nat.add_sub_cancel_left,
        List.getElem?_append_left hj]

end Sys2Proof.Machine
end

section
/-! The common checks of the format-K commands, in order (43_context_banks.md R150). -/

namespace Sys2Proof.Machine

variable {s : State} {i : Instr} {b c : BankNo}

/-- A bank number below `NBANK` has an entry: the bank, or none when it is dummy. -/
theorem getElem?_banks {n : Nat} (h : n < s.banks.length) : s.banks[n]? = some (s.bankAt n) := by
  rw [State.bankAt, List.getElem?_eq_getElem h, Option.join_some]

theorem withBankNo_of_lt (h : b.toNat < s.banks.length) (f : Option Bank → Result) :
    withBankNo s b f = f (s.bankAt b.toNat) :=
  withBankNo_of_get (getElem?_banks h) f

theorem withBankNo_badBank (h : s.banks.length ≤ b.toNat) (f : Option Bank → Result) :
    withBankNo s b f = raise s (.badBank b s.cfg.nbank) := by
  rw [withBankNo, List.getElem?_eq_none h]

theorem bankAt_eq_none {n : Nat} (h : s.liveAt n = false) : s.bankAt n = none := by
  simpa [State.liveAt] using h

theorem withBank_of_lt (hr : s.halt = false) (h : b.toNat < s.banks.length) (f : Bank → Result) :
    withBank s b f = withLive s b (s.bankAt b.toNat) f := by
  rw [withBank, whenRunning_running hr, withBankNo_of_lt h]

/-- Every format-K command checks `HALT` and then `BD` against `NBANK`. -/
theorem exec_eq_withBankNo (s : State) (hi : bankField i = some b) :
    ∃ f, exec i s = whenRunning s (withBankNo s b f) := by
  cases i with
  | bnew | bfree | binit | bcpy | bcpr | bwin | bld | bsv | grrd | grwr => cases hi; exact ⟨_, rfl⟩
  | _ => cases hi

/-- The two copies then check `BS` against `NBANK`. -/
theorem exec_eq_withSourceNo (s : State) (hi : bankField i = some b) (hc : sourceField i = some c) :
    ∃ f : Option Bank → Option Bank → Result,
      exec i s = whenRunning s (withBankNo s b fun o => withBankNo s c (f o)) := by
  cases i with
  | bcpy | bcpr => cases hi; cases hc; exact ⟨_, rfl⟩
  | _ => cases hc

/-- With both bank numbers in range, `BCPR` checks `BD` and then `BS` for a live bank. -/
theorem exec_bcpr_eq_withLive (off size : Half) (hr : s.halt = false) (hb : b.toNat < s.banks.length)
    (hc : c.toNat < s.banks.length) : ∃ f : Bank → Bank → Result, exec (.bcpr b c off size) s =
      withLive s b (s.bankAt b.toNat) fun bank => withLive s c (s.bankAt c.toNat) (f bank) :=
  ⟨_, (whenRunning_running hr _).trans ((withBankNo_of_lt hb _).trans (withBankNo_of_lt hc _))⟩

/-- With every bank number in range, the commands that need a live bank check `BD` for one. -/
theorem exec_eq_withLive (hi : bankField i = some b) (hn : needsLive i = true) (hr : s.halt = false)
    (hb : b.toNat < s.banks.length) (hc : ∀ c, sourceField i = some c → c.toNat < s.banks.length) :
    ∃ f, exec i s = withLive s b (s.bankAt b.toNat) f := by
  cases i with
  | binit | bwin | bld | bsv | grrd | grwr => cases hi; exact ⟨_, withBank_of_lt hr hb _⟩
  | bcpr _ src =>
    cases hi
    obtain ⟨f, hf⟩ := exec_bcpr_eq_withLive _ _ hr hb (hc src rfl)
    exact ⟨_, hf⟩
  | _ => cases hn

/-- `BCPR` to a live bank, with `BS` in range, checks `BS` for a live bank. -/
theorem exec_eq_withLiveSource (hi : bankField i = some b) (hc : sourceField i = some c) (hn : needsLive i = true)
    (hr : s.halt = false) (hb : s.liveAt b.toNat = true) (hlt : c.toNat < s.banks.length) :
    ∃ f, exec i s = withLive s c (s.bankAt c.toNat) f := by
  obtain ⟨bank, hbank⟩ := liveAt_eq_true hb
  cases i with
  | bcpr =>
    cases hi
    cases hc
    obtain ⟨f, hf⟩ := exec_bcpr_eq_withLive _ _ hr (bankAt_lt hbank) hlt
    rw [hf, hbank]
    exact ⟨_, rfl⟩
  | bcpy => cases hn
  | _ => cases hc

/-- Settles O28: each check is the next one in front of the rest of the command, and fails in its turn. -/
theorem bankCommandsCheckInOrder : Obligations.BankCommandsCheckInOrder := by
  intro i s b hi hs
  simp only [← hs.bank_count]
  refine ⟨fun hh => ?halted, fun hr hb => ?badBank, fun hr hb c hc hlt => ?badSource, fun hr hb hc hn hl => ?dummy,
    fun hr hb hn c hc hlt hl => ?dummySource⟩
  case halted =>
    obtain ⟨f, hf⟩ := exec_eq_withBankNo s hi
    rw [hf, whenRunning_halted hh]
  case badBank =>
    obtain ⟨f, hf⟩ := exec_eq_withBankNo s hi
    rw [hf, whenRunning_running hr, withBankNo_badBank hb, raise_badBank, hs.bank_count]
  case badSource =>
    obtain ⟨f, hf⟩ := exec_eq_withSourceNo s hi hc
    rw [hf, whenRunning_running hr, withBankNo_of_lt hb, withBankNo_badBank hlt, raise_badBank, hs.bank_count]
  case dummy =>
    obtain ⟨f, hf⟩ := exec_eq_withLive hi hn hr hb hc
    rw [hf, bankAt_eq_none hl, withLive, raise_dummyContext]
  case dummySource =>
    obtain ⟨f, hf⟩ := exec_eq_withLiveSource hi hc hn hr hb hlt
    rw [hf, bankAt_eq_none hl, withLive, raise_dummyContext]

end Sys2Proof.Machine
end

section
/-! Commands that write a whole bank: BNEW, BFREE and BCPY (43_context_banks.md R151, R152, R155). -/

namespace Sys2Proof.Machine

variable {s : State} {b : BankNo}

/-- Answering alone completes, whatever bank is named. -/
theorem completesOnBank_respond (s : State) (n : Nat) : CompletesOnBank s (s.respond 0 0 []) n :=
  ⟨by rw [respond_responses, response_eq_rsp], ⟨rfl, rfl, rfl, rfl⟩, ⟨rfl, rfl, rfl⟩, rfl, fun _ _ => rfl⟩

/-- A command that writes a bank after the check of its number leaves what it writes. -/
theorem withBankNo_completes {f : Option Bank → Result} {o : Option Bank} (hr : s.halt = false)
    (hb : b.toNat < s.banks.length) (hf : ∀ p, f p = done (s.putBank b o)) :
    ∃ t, whenRunning s (withBankNo s b f) = .next t ∧ t.bankAt b.toNat = o ∧ CompletesOnBank s t b.toNat :=
  ⟨_, by rw [whenRunning_running hr, withBankNo_of_lt hb, hf]; rfl, bankAt_written hb o, completesOnBank_putBank o⟩

/-- Settles O40: BNEW writes `freshBank`, whose arrays are replicated zeros. -/
theorem bnewZeroesBank : Obligations.BnewZeroesBank := by
  intro s b hr hs hb
  obtain ⟨t, ht, hbank, hc⟩ : ∃ t, exec (.bnew b) s = .next t ∧ t.bankAt b.toNat = some (freshBank s.cfg) ∧
      CompletesOnBank s t b.toNat :=
    withBankNo_completes hr (hs.bank_count ▸ hb) fun _ => rfl
  refine ⟨t, ht, by rw [State.liveAt, hbank]; rfl, fun i => ?slots, fun k => ?stats, hc⟩
  case slots => rw [slotAt_eq hbank]; exact List.getElem?_replicate
  case stats => rw [statAt_eq hbank]; exact List.getElem?_replicate

/-- Settles O41: BFREE writes a dummy bank. -/
theorem bfreeMakesDummy : Obligations.BfreeMakesDummy := by
  intro s b hr hs hb
  exact withBankNo_completes hr (hs.bank_count ▸ hb) fun _ => rfl

/-- Settles O43: BCPY onto the same bank only answers; else it writes what the source is. -/
theorem bcpyCopiesBank : Obligations.BcpyCopiesBank := by
  intro s dst src hr hs hd hsrc
  rw [← hs.bank_count] at hd hsrc
  by_cases h : dst = src
  · subst h
    refine ⟨s.respond 0 0 [], ?_, bankAt_respond .., completesOnBank_respond s _⟩
    simp only [exec, execBcpy, whenRunning_running hr, withBankNo_of_lt hd, if_true]
    rfl
  · refine withBankNo_completes hr hd fun _ => ?_
    rw [withBankNo_of_lt hsrc, if_neg h]

end Sys2Proof.Machine
end

section
/-! Statistics words: GRRD and GRWR (43_context_banks.md R162, R163). -/

namespace Sys2Proof.Machine

variable {s : State} {b : BankNo} {k : Half} {bank : Bank}

/-- `BadStat(k, NGR)` with its information words as numbers (R211). -/
theorem raise_badStat (k : Half) (ngr : Nat) :
    raise s (.badStat k ngr) = .next (faulted s 10 (BitVec.ofNat 32 k.toNat) (BitVec.ofNat 32 ngr)) := by
  rw [raise_eq]
  simp only [Violation.code, Violation.info0, Violation.info1, setWidth_eq_ofNat]

/-- `BadStat(k, NGR)`: the outcome that GRRD and GRWR share. -/
theorem withStat_badStat (hr : s.halt = false) (hs : s.Shape) (hl : s.liveAt b.toNat = true)
    (hk : s.cfg.ngr ≤ k.toNat) (f : Bank → Word → Result) : withStat s b k f =
      .next (faulted s 10 (BitVec.ofNat 32 k.toNat) (BitVec.ofNat 32 s.cfg.ngr)) := by
  obtain ⟨bank, hb⟩ := liveAt_eq_true hl
  rw [withStat, withBank_of_bankAt hr hb, List.getElem?_eq_none (hs.stats hb ▸ hk), raise_badStat]

/-- Settles O48: GRRD answers the word that `withStat` looks up. -/
theorem grrdReadsStatistic : Obligations.GrrdReadsStatistic := by
  intro s b k hr hs hl
  refine ⟨fun hk => withStat_badStat hr hs hl hk _, fun v hv => ?_⟩
  obtain ⟨bank, hb⟩ := liveAt_eq_true hl
  rw [← finish_eq]
  exact withStat_of_get hr hb (statAt_eq hb _ ▸ hv) _

/-- The bank after one statistics word was written. -/
theorem bankAt_after_putStat (hb : s.bankAt b.toNat = some bank) (k : Half) (v : Word) :
    ((s.putStat b bank k v).respond 0 0 []).bankAt b.toNat = some { bank with gr := bank.gr.set k.toNat v } :=
  bankAt_written (bankAt_lt hb) _

/-- Settles O49: GRWR writes the bank with one statistics word replaced. -/
theorem grwrWritesStatistic : Obligations.GrwrWritesStatistic := by
  intro s b k value hr hs hl
  refine ⟨fun hk => withStat_badStat hr hs hl hk _, fun hk => ?_⟩
  obtain ⟨bank, hb⟩ := liveAt_eq_true hl
  rw [← hs.stats hb] at hk
  have hw := bankAt_after_putStat hb k value
  refine ⟨_, withStat_of_get hr hb (List.getElem?_eq_getElem hk) _, completesOnBank_putBank _, ?live, ?word,
    fun j hj => ?otherWords, fun i => ?slots⟩
  case live => rw [State.liveAt, hw]; rfl
  case word => rw [statAt_eq hw, List.getElem?_set_self hk]
  case otherWords => rw [statAt_eq hw, statAt_eq hb, List.getElem?_set_ne hj.symm]
  case slots => rw [slotAt_eq hw, slotAt_eq hb]

end Sys2Proof.Machine
end

section
/-! Commands that write every slot of a live bank: BINIT, BCPR, BLD and BWIN, and BSV, which reads every slot
(43_context_banks.md R153, R156, R157, R158, R161). -/

namespace Sys2Proof.Machine

variable {s : State} {b : BankNo} {bank : Bank} {slots : List Slot}

/-! ### The frame -/

/-- The command completed and wrote all slots of a bank; its statistics words are kept. -/
def CompletesOnSlots (s t : State) (b : Nat) (slots : List Slot) : Prop :=
  CompletesOnBank s t b ∧ (∀ i, t.slotAt b i = slots[i]?) ∧ ∀ k, t.statAt b k = s.statAt b k

theorem completesOnSlots_putSlots (hb : s.bankAt b.toNat = some bank) (slots : List Slot) :
    CompletesOnSlots s ((s.putSlots b bank slots).respond 0 0 []) b.toNat slots := by
  have hw : ((s.putSlots b bank slots).respond 0 0 []).bankAt b.toNat = some { bank with slots := slots } :=
    bankAt_written (bankAt_lt hb) _
  refine ⟨completesOnBank_putBank _, fun i => slotAt_eq hw i, fun k => ?_⟩
  rw [statAt_eq hw, statAt_eq hb]

/-- A body that writes all slots of the bank completes on those slots. -/
theorem withBank_completes {f : Bank → Result} (hr : s.halt = false) (hb : s.bankAt b.toNat = some bank)
    (hf : f bank = done (s.putSlots b bank slots)) :
    ∃ t, withBank s b f = .next t ∧ CompletesOnSlots s t b.toNat slots :=
  ⟨_, by rw [withBank_of_bankAt hr hb, hf]; rfl, completesOnSlots_putSlots hb slots⟩

/-! ### The size of a payload (R157) -/

/-- `SizeMismatch(NCTX, LEN)`: the outcome that BLD, BSV and BWIN share. -/
theorem withSize_mismatch {n : Nat} (hr : s.halt = false) (hl : s.liveAt b.toNat = true) (hn : n ≠ s.cfg.nctx)
    (f : Bank → Result) : withSize s b n f =
      .next (faulted s 4 (BitVec.ofNat 32 s.cfg.nctx) (BitVec.ofNat 32 n)) := by
  obtain ⟨bank, hb⟩ := liveAt_eq_true hl
  rw [withSize, withBank_of_bankAt hr hb, if_neg hn, raise_eq]
  rfl

/-- A body that writes all slots of the bank, for a payload of the right size, completes on those slots. -/
theorem withSize_completes {f : Bank → Result} {n : Nat} (hr : s.halt = false) (hb : s.bankAt b.toNat = some bank)
    (hn : n = s.cfg.nctx) (hf : f bank = done (s.putSlots b bank slots)) :
    ∃ t, withSize s b n f = .next t ∧ CompletesOnSlots s t b.toNat slots :=
  withBank_completes hr hb ((if_pos hn).trans hf)

/-! ### State words: BLD and BSV (R157, R158) -/

/-- Settles O45: BLD stores word `i` in slot `i`, as `storeWord_eq` reads it. -/
theorem bldLoadsStates : Obligations.BldLoadsStates := by
  intro s b words hr hs hl
  refine ⟨fun hn => withSize_mismatch hr hl hn _, fun hn => ?_⟩
  obtain ⟨bank, hb⟩ := liveAt_eq_true hl
  obtain ⟨t, ht, hbank, hslots, hstats⟩ : ∃ t, exec (.bld b words) s = .next t ∧
      CompletesOnSlots s t b.toNat (List.zipWith (storeWord s.cfg) words bank.slots) :=
    withSize_completes hr hb hn rfl
  refine ⟨t, ht, hbank, fun i w p hw hp => ?stored,
    fun i hi => (hslots i).trans (List.getElem?_eq_none ?noOthers), hstats⟩
  case stored =>
    rw [slotAt_eq hb] at hp
    rw [hslots, ← storeWord_eq]
    exact List.getElem?_zipWith_eq_some.mpr ⟨w, p, hw, hp, rfl⟩
  case noOthers => rw [List.length_zipWith]; omega

/-- Settles O46: BSV answers the state word of each slot, read as a number by `stateWord_eq`. -/
theorem bsvSavesStates : Obligations.BsvSavesStates := by
  intro s b len hr hs hl
  refine ⟨fun hn => withSize_mismatch hr hl hn _, fun hn => ?_⟩
  obtain ⟨bank, hb⟩ := liveAt_eq_true hl
  refine ⟨bank.slots.map stateWord, ?answers, ?length, fun i p hp => ?word⟩
  case answers => rw [← finish_eq]; exact withSize_of_eq hr hb hn _
  case length => rw [List.length_map, hs.slots hb]
  case word => rw [slotAt_eq hb] at hp; rw [List.getElem?_map, hp, Option.map_some, stateWord_eq]

/-! ### Ranges: BCPR (R156) -/

/-- `BadSet((size << 16) | off, NCTX)` with its information words as numbers (R211). -/
theorem raise_badSet (set : ContextSet) (n : Nat) : raise s (.badSet (wordOfSet set) n) =
    .next (faulted s 8 (BitVec.ofNat 32 (set.size.toNat * 2 ^ 16 + set.offset.toNat)) (BitVec.ofNat 32 n)) := by
  rw [raise_eq, ← wordOfSet_eq]
  rfl

/-- BCPR between live banks checks the range and then copies. -/
theorem exec_bcpr_live {dst src : BankNo} {bd bs : Bank} (off size : Half) (hr : s.halt = false)
    (hd : s.bankAt dst.toNat = some bd) (hsrc : s.bankAt src.toNat = some bs) : exec (.bcpr dst src off size) s =
      if off.toNat + size.toNat ≤ s.cfg.nctx then
        done (if dst = src then s else s.putSlots dst bd (copyRange off.toNat size.toNat bd.slots bs.slots))
      else raise s (.badSet (wordOfSet ⟨off, size⟩) s.cfg.nctx) := by
  rw [exec, execBcpr, whenRunning_running hr, withBankNo_of_get (bankAt_eq_some.mp hd),
    withBankNo_of_get (bankAt_eq_some.mp hsrc)]
  rfl

/-- Settles O44: copying a bank onto itself only answers; else the slots written are those of `copyRange`, read by
`copyRange_getElem?`. -/
theorem bcprCopiesRange : Obligations.BcprCopiesRange := by
  intro s dst src off size hr hs hld hls
  obtain ⟨bd, hd⟩ := liveAt_eq_true hld
  obtain ⟨bs, hsrc⟩ := liveAt_eq_true hls
  rw [exec_bcpr_live off size hr hd hsrc]
  refine ⟨fun hn => ?badSet, fun hn => ?copies⟩
  case badSet => rw [if_neg hn.not_ge, raise_badSet]
  case copies =>
    rw [if_pos hn]
    by_cases h : dst = src
    · subst h
      rw [if_pos rfl]
      refine ⟨_, rfl, completesOnBank_respond s _, fun i => ?_, fun k => rfl⟩
      rw [ite_self, slotAt_respond]
    · rw [if_neg h]
      obtain ⟨hbank, hslots, hstats⟩ :=
        completesOnSlots_putSlots hd (copyRange off.toNat size.toNat bd.slots bs.slots)
      refine ⟨_, rfl, hbank, fun i => ?_, hstats⟩
      rw [hslots, slotAt_eq hd, slotAt_eq hsrc]
      exact copyRange_getElem? (hs.slots hd ▸ hn) ((hs.slots hsrc).trans (hs.slots hd).symm) i

end Sys2Proof.Machine
end

section
/-! Rates of a whole bank: BINIT and BWIN, and the search for the first bad rate (43_context_banks.md R153, R161). -/

namespace Sys2Proof.Machine

variable {s : State} {b : BankNo} {bank : Bank} {c : Config} {qp initId : Byte} {row : RomRow} {rates : List Word}

/-! ### The search for a bad rate -/

theorem validRate_iff (w : Byte) : validRate c w = true ↔ c.ratePairs[w.toNat]? ≠ some none := by
  have hget : c.ratePairs[w.toNat]? = some (ratePair c w) := Vector.getElem?_eq_getElem _
  rw [validRate_eq w hget, hget, ne_eq, Option.some_inj, Option.isSome_iff_ne_none]

variable {α : Type} {g : α → Byte} {l : List α}

/-- The first element whose rate has no pair, behind elements whose rates have one, is found with its index. -/
theorem firstBadRate_eq_some {i n : Nat} {x : α} (hx : l[i]? = some x) (hbad : c.ratePairs[(g x).toNat]? = some none)
    (hgood : ∀ j y, j < i → l[j]? = some y → c.ratePairs[(g y).toNat]? ≠ some none) :
    firstBadRate c n (l.map g) = some (n + i, g x) := by
  induction l generalizing i n with
  | nil => cases hx
  | cons y ys ih =>
    rw [List.map_cons, firstBadRate]
    cases i with
    | zero =>
      cases hx
      exact if_neg fun hv => (validRate_iff _).mp hv hbad
    | succ i =>
      rw [if_pos ((validRate_iff _).mpr (hgood 0 y (Nat.succ_pos i) rfl)),
        ih hx fun j z hj hz => hgood (j + 1) z (Nat.succ_lt_succ hj) hz, Nat.add_assoc, Nat.add_comm 1]

theorem firstBadRate_eq_none {n : Nat} (hgood : ∀ x ∈ l, c.ratePairs[(g x).toNat]? ≠ some none) :
    firstBadRate c n (l.map g) = none := by
  induction l generalizing n with
  | nil => rfl
  | cons y ys ih =>
    rw [List.forall_mem_cons] at hgood
    rw [List.map_cons, firstBadRate, if_pos ((validRate_iff _).mpr hgood.1), ih hgood.2]

/-! ### BINIT (R153) -/

/-- R153: the ids 0, 1, 2 are the seed rows. -/
theorem seedRow_eq (initId : Byte) : seedRow initId = [RomRow.seedI, .seedP, .seedB][initId.toNat]? := by
  unfold seedRow
  split
  · exact (List.getElem?_eq_none ‹_›).symm
  · rw [romRow_eq]
    exact List.getElem?_append_left (l₁ := [RomRow.seedI, .seedP, .seedB]) (l₂ := [.rate]) (Nat.not_le.mp ‹_›)

/-- The seed an id selects in a column, the three seeds taken in the order of the rows. -/
theorem map_romByte_seedRow (initId : Byte) (e : ContextEntry) :
    (seedRow initId).map (romByte · e) = [e.seedI, e.seedP, e.seedB][initId.toNat]? := by
  rw [seedRow_eq, ← List.getElem?_map]
  rfl

/-- The slot BINIT writes has the masked count of its seed in both fields, and the rate of the ROM. -/
theorem romSlot_eq (c : Config) (qp : Byte) (row : RomRow) (e : ContextEntry) : romSlot c qp row e =
    ⟨masked (initialCount c qp (romByte row e)).toNat c.prec0,
      masked (initialCount c qp (romByte row e)).toNat c.prec1, e.rate⟩ := by
  rw [romSlot, seedSlot_eq]

theorem exec_binit_badInitId (hr : s.halt = false) (hb : s.bankAt b.toNat = some bank) (hrow : seedRow initId = none) :
    exec (.binit b qp initId) s = raise s (.badInitId initId) := by
  simp only [exec, execBinit, withBank_of_bankAt hr hb, hrow]

theorem exec_binit_badRate {i : Nat} {r : Byte} (hr : s.halt = false) (hb : s.bankAt b.toNat = some bank)
    (hrow : seedRow initId = some row)
    (hbad : firstBadRate s.cfg 0 (s.cfg.initRom.map ContextEntry.rate) = some (i, r)) :
    exec (.binit b qp initId) s = raise s (.badRate i r) := by
  simp only [exec, execBinit, withBank_of_bankAt hr hb, hrow, hbad]

theorem exec_binit_completes (hr : s.halt = false) (hb : s.bankAt b.toNat = some bank)
    (hrow : seedRow initId = some row) (hgood : firstBadRate s.cfg 0 (s.cfg.initRom.map ContextEntry.rate) = none) :
    ∃ t, exec (.binit b qp initId) s = .next t ∧
      CompletesOnSlots s t b.toNat (s.cfg.initRom.map (romSlot s.cfg qp row)) :=
  withBank_completes hr hb (by simp only [hrow, hgood])

/-- Settles O42: `seedRow_eq` decides between `BadInitId` and a row, the search of the rates between `BadRate` and the
slots of `romSlot_eq`. -/
theorem binitSeedsBank : Obligations.BinitSeedsBank := by
  intro s b qp initId hr hl
  obtain ⟨bank, hb⟩ := liveAt_eq_true hl
  refine ⟨fun hid => ?badInitId, fun i e hid he hbad hgood => ?badRate, fun hid hgood => ?seeds⟩
  case badInitId =>
    rw [exec_binit_badInitId hr hb ((seedRow_eq initId).trans (List.getElem?_eq_none hid)), raise_badInitId]
  all_goals
    obtain ⟨row, hrow⟩ : ∃ row, seedRow initId = some row :=
      ⟨_, (seedRow_eq initId).trans (List.getElem?_eq_getElem hid)⟩
  case badRate =>
    rw [exec_binit_badRate hr hb hrow (firstBadRate_eq_some he hbad hgood), raise_badRate, Nat.zero_add]
  case seeds =>
    obtain ⟨t, ht, hbank, hslots, hstats⟩ := exec_binit_completes (qp := qp) hr hb hrow (firstBadRate_eq_none hgood)
    refine ⟨t, ht, hbank,
      fun i e he => ⟨romByte row e, _, ?seed, seedCount_initialCount s.cfg qp (romByte row e), ?slot⟩,
      fun i hi => (hslots i).trans (List.getElem?_eq_none ?noOthers), hstats⟩
    case seed => rw [← map_romByte_seedRow, hrow, Option.map_some]
    case slot => rw [hslots, List.getElem?_map, he, Option.map_some, romSlot_eq]
    case noOthers => rw [List.length_map]; exact hi

/-! ### BWIN (R161) -/

/-- The rate byte of a payload word as a number. -/
theorem rateOfWord_toNat (v : Word) : (rateOfWord v).toNat = v.toNat % 2 ^ 8 := by
  rw [rateOfWord, toNat_slice, Nat.pow_zero, Nat.div_one]

theorem rateOfWord_eq (v : Word) : rateOfWord v = BitVec.ofNat 8 (v.toNat % 2 ^ 8) := by
  rw [← rateOfWord_toNat, BitVec.ofNat_toNat, BitVec.setWidth_eq]

theorem exec_bwin_badRate {i : Nat} {r : Byte} (hr : s.halt = false) (hb : s.bankAt b.toNat = some bank)
    (hn : rates.length = s.cfg.nctx) (hbad : firstBadRate s.cfg 0 (rates.map rateOfWord) = some (i, r)) :
    exec (.bwin b rates) s = raise s (.badRate i r) := by
  simp only [exec, execBwin, withSize_of_eq hr hb hn, hbad]

theorem exec_bwin_completes (hr : s.halt = false) (hb : s.bankAt b.toNat = some bank)
    (hn : rates.length = s.cfg.nctx) (hgood : firstBadRate s.cfg 0 (rates.map rateOfWord) = none) :
    ∃ t, exec (.bwin b rates) s = .next t ∧
      CompletesOnSlots s t b.toNat (List.zipWith rateSlot rates bank.slots) :=
  withSize_completes hr hb hn (by simp only [hgood])

/-- Settles O47: after the size, the search of the rates decides between `BadRate` and the slots of `rateSlot`. -/
theorem bwinSetsRates : Obligations.BwinSetsRates := by
  intro s b rates hr hs hl
  obtain ⟨bank, hb⟩ := liveAt_eq_true hl
  simp only [← rateOfWord_toNat]
  refine ⟨fun hn => withSize_mismatch hr hl hn _, fun i v hn hv hbad hgood => ?badRate, fun hn hgood => ?rated⟩
  case badRate =>
    rw [exec_bwin_badRate hr hb hn (firstBadRate_eq_some hv hbad hgood), raise_badRate, Nat.zero_add]
  case rated =>
    obtain ⟨t, ht, hbank, hslots, hstats⟩ := exec_bwin_completes hr hb hn (firstBadRate_eq_none hgood)
    refine ⟨t, ht, hbank, fun i v p hv hp => ?slot,
      fun i hi => (hslots i).trans (List.getElem?_eq_none ?noOthers), hstats⟩
    case slot =>
      rw [slotAt_eq hb] at hp
      rw [hslots, rateOfWord_toNat, ← rateOfWord_eq]
      exact List.getElem?_zipWith_eq_some.mpr ⟨v, p, hv, hp, rfl⟩
    case noOthers => rw [List.length_zipWith]; omega

end Sys2Proof.Machine
end

section
/-! The halted state (60_exceptions.md R212, R214 to R216): what refuses in it, how a fault leads to it, and what a command
leaves of it. -/

namespace Sys2Proof

/-- The operands of `RDSR` are those of its own row, with no payload. -/
theorem Opcode.assemble_eq_rdsr {op : Opcode} {cw : LongWord} {pl : List Word} {n : Half}
    (h : op.assemble cw pl = .ok (.rdsr n)) : op = .rdsr ∧ pl = [] ∧ fieldA cw = n := by
  cases op with
  | rdsr => simpa [Opcode.assemble] using h
  | _ => simp [Opcode.assemble] at h

/-- R72: the reserved bits of `RDSR` are every field but `OPC` and `A`. -/
theorem eq_pack_of_rdsr_reserved {cw : LongWord} (h : cw &&& Opcode.rdsr.reserved = 0) :
    cw = fieldOpc cw ++ (0 : BankNo) ++ (0 : BankNo) ++ fieldA cw ++ (0 : Half) ++ (0 : Half) := by
  have hp := pack_fields cw
  rw [← hp, packed_reserved_iff] at h
  obtain ⟨hbd, hbs, -, hb, hc⟩ := h
  have hbd : fieldBd cw = 0 := BitVec.and_allOnes.symm.trans hbd
  have hbs : fieldBs cw = 0 := BitVec.and_allOnes.symm.trans hbs
  have hb : fieldB cw = 0 := BitVec.and_allOnes.symm.trans hb
  have hc : fieldChi cw ++ fieldClo cw = (0 : Half) := BitVec.and_allOnes.symm.trans hc
  rw [hbd, hbs, hb, hc] at hp
  exact hp.symm

/-- The command word of `RDSR n` as a number (R71, R72). -/
theorem pack_rdsr_eq (n : Half) : packWord .rdsr 0 0 n 0 0 = BitVec.ofNat 64 (0x70 * 2 ^ 56 + n.toNat * 2 ^ 32) := by
  apply BitVec.eq_of_toNat_eq
  have := n.isLt
  simp only [packWord_toNat, Opcode.code, BitVec.ofNat_eq_ofNat, BitVec.toNat_ofNat]
  omega

/-- The one command that decodes to `RDSR n` is the word of R72 with `n` in field `A` and no payload. -/
theorem eq_of_decode_rdsr {c : Command} {n : Half} (h : decode c = .ok (.rdsr n)) :
    c = ⟨BitVec.ofNat 64 (0x70 * 2 ^ 56 + n.toNat * 2 ^ 32), []⟩ := by
  obtain ⟨cw, pl⟩ := c
  obtain ⟨op, hop, hz, ha⟩ := decode_ok.mp h
  obtain ⟨rfl, rfl, rfl⟩ := Opcode.assemble_eq_rdsr ha
  have hcw := eq_pack_of_rdsr_reserved hz
  rw [hop] at hcw
  rw [← pack_rdsr_eq]
  exact congrArg (Command.mk · []) hcw

end Sys2Proof

namespace Sys2Proof.Machine

variable {s t : State} {i : Instr} {c : Command}

/-- R53: there are ten status registers. -/
theorem statusRegister_eq_none {n : Half} (h : 10 ≤ n.toNat) : statusRegister s n = none := by
  obtain ⟨k, hk⟩ := Nat.exists_eq_add_of_le' h
  rw [statusRegister, hk]
  rfl

/-- R212: every command makes the halted check first, but for `RDSR` of a register that is there. -/
theorem exec_eq_whenRunning (s : State) (hi : ∀ n, i = .rdsr n → 10 ≤ n.toNat) : ∃ r, exec i s = whenRunning s r := by
  cases i with
  | rdsr n => exact ⟨raiseIllegal s (.rdsr n), by simp only [exec, execRdsr, statusRegister_eq_none (hi n rfl)]⟩
  | _ => exact ⟨_, rfl⟩

theorem runCommand_eq_whenRunning (s : State) (h : ∀ n, decode c = .ok (.rdsr n) → 10 ≤ n.toNat) :
    ∃ r, runCommand c s = whenRunning s r := by
  cases hd : decode c with
  | ok i =>
    rw [runCommand_of_decode hd]
    exact exec_eq_whenRunning s fun n hn => h n (by rw [hd, hn])
  | error e => exact ⟨_, runCommand_of_not_decodes (by simp [hd])⟩

/-- Settles O7: a command that is no `RDSR` of a register that is there makes the halted check, and the check refuses. -/
theorem haltedCommandRefused : Obligations.HaltedCommandRefused := by
  intro s c rest hh hin hc
  have hrdsr (n : Half) (hd : decode c = .ok (.rdsr n)) : 10 ≤ n.toNat := by
    by_contra hn
    exact hc n.toNat (by omega) (eq_of_decode_rdsr hd)
  obtain ⟨r, hr⟩ := runCommand_eq_whenRunning { s with inputs := rest } hrdsr
  rw [step_command hin, hr]
  exact whenRunning_halted (s := { s with inputs := rest }) hh r

theorem Completed.halt_eq (h : Completed i s t) : t.halt = s.halt := by
  obtain ⟨_, _, _, _, hh, _⟩ := h
  exact hh

/-- A command that halts a running PME raised a violation: completing keeps `HALT`. -/
theorem runCommand_enterFault (hr : s.halt = false) (h : runCommand c s = .next t) (ht : t.halt = true) :
    ∃ v : Violation, t = s.enterFault v := by
  rcases runCommand_completed h with (⟨hh, -⟩ | ⟨-, hv⟩) | ⟨i, -, hc⟩
  · exact absurd (hr.symm.trans hh) Bool.false_ne_true
  · exact hv
  · exact absurd (hr.symm.trans (hc.halt_eq.symm.trans ht)) Bool.false_ne_true

/-- Settles O21: the state after is fault entry, and R214 says all of it. -/
theorem faultsArePrecise : Obligations.FaultsArePrecise := by
  intro s t c rest hin hr hstep ht
  rw [step_command hin] at hstep
  obtain ⟨v, rfl⟩ := runCommand_enterFault (s := { s with inputs := rest }) hr hstep ht
  exact ⟨v.code, v.info0, v.info1, v.code_range.1, v.code_range.2, enterFault_eq_faulted _ v⟩

/-- R216: a halted PME only responds to a command: fault entry and every write need it running. -/
theorem runCommand_halted (hh : s.halt = true) (h : runCommand c s = .next t) :
    ∃ st data out, t = s.respond st data out := by
  rcases runCommand_next h with (⟨-, rfl⟩ | ⟨hr, -⟩) | ⟨_, -, ⟨_, _, rfl, -⟩ | ⟨hr, -⟩⟩
  · exact ⟨_, _, _, rfl⟩
  · exact absurd (hr.symm.trans hh) Bool.false_ne_true
  · exact ⟨_, _, _, rfl⟩
  · exact absurd (hr.symm.trans hh) Bool.false_ne_true

/-- Settles O22: responding changes neither the status registers nor a bank. -/
theorem haltLastsUntilReset : Obligations.HaltLastsUntilReset := by
  intro s t c rest hh hin hstep
  rw [step_command hin] at hstep
  obtain ⟨st, data, out, rfl⟩ := runCommand_halted (s := { s with inputs := rest }) hh hstep
  exact ⟨hh, rfl, rfl, rfl, rfl⟩

end Sys2Proof.Machine
end

section
/-! The reset input (70_reset_and_hazards.md R240): what it leaves, and that nothing else leaves the halted state. -/

namespace Sys2Proof.Machine

variable {s t : State} {rest : List Input} {c : Command}

/-- R240, U15: when reset is asserted matters to the responses alone. -/
theorem step_of_reset (h : s.inputs = .reset :: rest ∨ s.inputs = .resetDuring c :: rest) :
    ∃ responses freeCount, step s =
      .next { State.clear { s with inputs := rest } with responses := responses, freeCount := freeCount } := by
  rcases h with hin | hin
  · exact ⟨s.responses, s.freeCount, by rw [step, hin]; rfl⟩
  · exact ⟨_, _, by rw [step, hin]; rfl⟩

/-- Where no bank is live, every bank read is dummy, in range or not. -/
theorem bankAt_of_all_dummy {n : Nat} (h : s.banks = List.replicate n none) (b : Nat) : s.bankAt b = none := by
  refine Option.eq_none_iff_forall_ne_some.mpr fun bank hb => ?_
  have hmem : some bank ∈ List.replicate n none := h ▸ List.mem_of_getElem? (bankAt_eq_some.mp hb)
  exact Option.some_ne_none bank (List.eq_of_mem_replicate hmem)

/-- A step that clears `HALT` took the reset input: waiting changes nothing, and a halted PME only responds to a command. -/
theorem reset_of_step_clears_halt (hh : s.halt = true) (h : step s = .next t) (ht : t.halt = false) :
    ∃ rest c, s.inputs = .reset :: rest ∨ s.inputs = .resetDuring c :: rest := by
  rcases step_next h with ⟨-, rfl⟩ | ⟨c, rest, -, hc⟩ | ⟨rest, hin, -⟩ | ⟨c, rest, hin, -⟩
  · exact absurd (ht.symm.trans hh) Bool.false_ne_true
  · obtain ⟨_, _, _, rfl⟩ := runCommand_halted (s := { s with inputs := rest }) hh hc
    exact absurd (ht.symm.trans hh) Bool.false_ne_true
  · exact ⟨rest, ⟨0, []⟩, .inl hin⟩
  · exact ⟨rest, c, .inr hin⟩

/-- Settles O11: both reset inputs leave the cleared state, whose banks are all dummy; the converse is
`reset_of_step_clears_halt`. -/
theorem resetInputClears : Obligations.ResetInputClears := by
  refine ⟨fun s rest c hin => ?_, fun s t => reset_of_step_clears_halt⟩
  obtain ⟨responses, freeCount, hstep⟩ := step_of_reset hin
  have hdummy := bankAt_of_all_dummy (clear_banks { s with inputs := rest })
  refine ⟨_, hstep, List.length_replicate, fun b => ?live, fun b i => ?slot, fun b k => ?stat,
    rfl, rfl, rfl, rfl, rfl, rfl⟩
  case live => exact congrArg Option.isSome (hdummy b)
  case slot => exact congrArg (Option.bind · _) (hdummy b)
  case stat => exact congrArg (Option.bind · _) (hdummy b)

end Sys2Proof.Machine
end

section
/-! The round trip of encoding and decoding (30_encoding.md R70 to R77): each is the inverse of the other. -/

namespace Sys2Proof

variable {op : Opcode} {bd bs : BankNo} {a b c : Half} {cw : LongWord} {pl : List Word} {i : Instr}

/-! ### The operand in `C` (R75) -/

@[simp] theorem low_byte_lowC (v : Byte) : (lowC v).extractLsb' 0 8 = v := low_byte 0#8 v

/-- `C` is its two bytes. -/
theorem high_append_low (c : Half) : c.extractLsb' 8 8 ++ c.extractLsb' 0 8 = c :=
  BitVec.extractLsb'_append_extractLsb' (w := 8) (len := 8)

/-- `C` with nothing in its reserved high byte is its low byte. -/
theorem lowC_of_reserved (h : c &&& 0xFF00#16 = 0) : lowC (c.extractLsb' 0 8) = c := by
  have hm : (0xFF00#16) = 0xFF#8 ++ 0x00#8 := rfl
  have hz : (0 : Half) = 0#8 ++ 0#8 := rfl
  rw [← high_append_low c, hm, hz, BitVec.and_append, append_eq_append] at h
  have hhigh : c.extractLsb' 8 8 = 0#8 := BitVec.and_allOnes.symm.trans h.1
  rw [lowC, ← hhigh, high_append_low]

/-- `C` with nothing above bit 0 is its bin. -/
theorem binC_of_reserved {v : Half} (h : v &&& 0xFFFE#16 = 0) : binC v[0] = v := by
  have hv : v.extractLsb' 1 15 ++ v.extractLsb' 0 1 = v := BitVec.extractLsb'_append_extractLsb' (w := 15) (len := 1)
  have hm : (0xFFFE#16) = 0x7FFF#15 ++ 0#1 := rfl
  have hz : (0 : Half) = 0#15 ++ 0#1 := rfl
  rw [← hv, hm, hz, BitVec.and_append, append_eq_append] at h
  have hhigh : v.extractLsb' 1 15 = 0#15 := BitVec.and_allOnes.symm.trans h.1
  have hlow : BitVec.ofBool v[0] = v.extractLsb' 0 1 := BitVec.eq_of_getLsbD_eq (by simp)
  rw [binC, hlow, ← hhigh, hv]

theorem bin_binC (v : Bool) : (binC v)[0] = v := bin_bit v

/-! ### Decoding after encoding -/

/-- The operands of a well-formed instruction assemble from its encoding. -/
theorem assemble_encode (h : i.wellFormed = true) : (opcodeOf i).assemble (encode i).cw (encode i).pl = .ok i := by
  cases i with
  | smrg l | bwin _ l | bld _ l =>
    simp only [opcodeOf, encode, Opcode.assemble, takeLen_ok, fieldA_pack, fieldBd_pack, and_true]
    exact Laws.FitsItsRow.len_of_fits h
  | _ => simp [opcodeOf, encode, Opcode.assemble, bin_binC]

/-- Settles O2: the encoding fits its row (`encode_fits`), and its operands assemble. -/
theorem decodeInvertsEncode : Obligations.DecodeInvertsEncode := by
  intro i hi
  obtain ⟨hop, hz, -⟩ := encode_fits i hi
  exact decode_ok.mpr ⟨opcodeOf i, hop, hz, assemble_encode hi⟩

/-! ### Encoding after decoding -/

theorem and_nibble (v : BankNo) : v &&& 0xF#4 = v := BitVec.and_allOnes
theorem and_half (v : Half) : v &&& 0xFFFF#16 = v := BitVec.and_allOnes

theorem lenField_of_length (h : pl.length = a.toNat) : lenField pl = a := by
  rw [lenField, h, BitVec.ofNat_toNat, BitVec.setWidth_eq]

/-- Operands taken from a packed word with its reserved fields zero encode to that word and payload. -/
theorem encode_of_assemble_pack (hbd : bd &&& fieldBd op.reserved = 0) (hbs : bs &&& fieldBs op.reserved = 0)
    (ha : a &&& fieldA op.reserved = 0) (hb : b &&& fieldB op.reserved = 0)
    (hc : c &&& op.reserved.extractLsb' 0 16 = 0) (h : op.assemble (packWord op bd bs a b c) pl = .ok i) :
    encode i = ⟨packWord op bd bs a b c, pl⟩ := by
  cases op
  all_goals
    simp only [Opcode.reserved, fieldBd, fieldBs, fieldA, fieldB, BitVec.ofNat_eq_ofNat, BitVec.reduceExtractLsb',
      BitVec.and_zero, and_nibble, and_half] at hbd hbs ha hb hc
  case pset | grwr =>
    obtain ⟨w, rfl, rfl⟩ := takeOne_ok.mp h
    simp [encode, hbs, hb, hc]
  case smrg | bwin | bld =>
    obtain ⟨hl, rfl⟩ := takeLen_ok.mp h
    simp [encode, lenField_of_length (fieldA_pack .. ▸ hl), hbd, hbs, hb, hc]
  all_goals
    obtain ⟨rfl, rfl⟩ := takeNone_ok.mp h
    simp [encode, high_append_low, lowC_of_reserved, binC_of_reserved, *]

theorem encode_of_assemble (hop : fieldOpc cw = op.code) (hz : cw &&& op.reserved = 0)
    (h : op.assemble cw pl = .ok i) : encode i = ⟨cw, pl⟩ := by
  have hcw : packWord op (fieldBd cw) (fieldBs cw) (fieldA cw) (fieldB cw) (fieldChi cw ++ fieldClo cw) = cw := by
    rw [packWord, ← hop, pack_fields]
  rw [← hcw, packWord, packed_reserved_iff] at hz
  obtain ⟨hbd, hbs, ha, hb, hc⟩ := hz
  rw [← hcw] at h
  rw [encode_of_assemble_pack hbd hbs ha hb hc h, hcw]

/-- A payload framed by `LEN` fits `LEN`. -/
theorem wellFormed_of_assemble (h : op.assemble cw pl = .ok i) : i.wellFormed = true := by
  cases op
  case smrg | bwin | bld =>
    obtain ⟨hl, rfl⟩ := takeLen_ok.mp h
    exact decide_eq_true (hl ▸ (fieldA cw).isLt)
  case pset | grwr => obtain ⟨w, rfl, rfl⟩ := takeOne_ok.mp h; rfl
  all_goals obtain ⟨rfl, rfl⟩ := takeNone_ok.mp h; rfl

/-- Settles O3: the command's fields, packed again, are the command, for no reserved bit is set. -/
theorem encodeInvertsDecode : Obligations.EncodeInvertsDecode := by
  intro c i h
  obtain ⟨op, hop, hz, ha⟩ := decode_ok.mp h
  exact ⟨encode_of_assemble hop hz ha, wellFormed_of_assemble ha⟩

/-- Settles O4: the table and the decoder take the same commands. -/
theorem decodesExactlyTheTable : Obligations.DecodesExactlyTheTable :=
  fun c => (inTable_iff_decodes c).symm

end Sys2Proof
end

section
/-! What every step keeps: the configuration, the array sizes, the rate invariant, and `HALT` with `FCODE`
(10_state.md R30, R33, R37; 00_scope.md R6), and that a step always answers (60_exceptions.md R214). -/

namespace Sys2Proof.Machine

variable {s t : State} {i : Instr} {b : BankNo} {rest : List Input} {c : Command}

/-! ### Totality (R77, R214) -/

/-- The result is a next state. -/
def Answers (r : Result) : Prop := ∃ t, r = .next t

namespace Answers

theorem of_finish {data : Word} {out : List Word} : Answers (finish s data out) := ⟨_, rfl⟩

theorem of_raise {v : Violation} : Answers (raise s v) := ⟨_, rfl⟩

theorem of_whenRunning {r : Result} (hr : Answers r) : Answers (whenRunning s r) := by
  unfold whenRunning
  split
  · exact ⟨_, rfl⟩
  · exact hr

theorem of_withBankNo {f : Option Bank → Result} (hf : ∀ o, Answers (f o)) : Answers (withBankNo s b f) := by
  unfold withBankNo
  split
  · exact of_raise
  · exact hf _

theorem of_withLive {o : Option Bank} {f : Bank → Result} (hf : ∀ bank, Answers (f bank)) :
    Answers (withLive s b o f) := by
  unfold withLive
  split
  · exact of_raise
  · exact hf _

theorem of_withBank {f : Bank → Result} (hf : ∀ bank, Answers (f bank)) : Answers (withBank s b f) :=
  of_whenRunning (of_withBankNo fun _ => of_withLive hf)

theorem of_withSlot {off sub : Half} {f : Bank → Slot → Result} (hf : ∀ bank p, Answers (f bank p)) :
    Answers (withSlot s b off sub f) := by
  refine of_withBank fun bank => ?_
  split
  · exact of_raise
  · exact hf _ _

theorem of_withStat {k : Half} {f : Bank → Word → Result} (hf : ∀ bank v, Answers (f bank v)) :
    Answers (withStat s b k f) := by
  refine of_withBank fun bank => ?_
  split
  · exact of_raise
  · exact hf _ _

theorem of_withSize {n : Nat} {f : Bank → Result} (hf : ∀ bank, Answers (f bank)) : Answers (withSize s b n f) := by
  refine of_withBank fun bank => ?_
  split
  · exact hf _
  · exact of_raise

end Answers

open Answers

/-- No arm of `exec` faults or refuses. -/
theorem exec_answers (i : Instr) (s : State) : Answers (exec i s) := by
  cases i with
  | pinit | pget | pset | pest | pqry => exact of_withSlot fun _ _ => of_finish
  | prate =>
    refine of_withSlot fun _ _ => ?_
    split
    · exact of_finish
    · exact of_raise
  | pupd =>
    refine of_withSlot fun _ _ => ?_
    split
    · exact of_raise
    · exact of_finish
  | tcnt | rnm => exact of_whenRunning of_finish
  | tget =>
    refine of_whenRunning ?_
    split
    · exact of_raise
    split
    · exact of_raise
    · exact of_finish
  | tgrp =>
    refine of_whenRunning ?_
    split
    · exact of_raise
    · exact of_finish
  | smrg =>
    refine of_whenRunning ?_
    split
    · exact of_raise
    split
    · exact of_raise
    · exact of_finish
  | bnew | bfree => exact of_whenRunning (of_withBankNo fun _ => of_finish)
  | binit =>
    refine of_withBank fun _ => ?_
    split
    · exact of_raise
    split
    · exact of_raise
    · exact of_finish
  | bcpy => exact of_whenRunning (of_withBankNo fun _ => of_withBankNo fun _ => of_finish)
  | bcpr =>
    refine of_whenRunning (of_withBankNo fun _ => of_withBankNo fun _ => of_withLive fun _ => of_withLive fun _ => ?_)
    split
    · exact of_finish
    · exact of_raise
  | bwin =>
    refine of_withSize fun _ => ?_
    split
    · exact of_raise
    · exact of_finish
  | bld | bsv => exact of_withSize fun _ => of_finish
  | grrd | grwr => exact of_withStat fun _ _ => of_finish
  | rdsr n =>
    change Answers (execRdsr n s)
    unfold execRdsr
    split
    · exact of_finish
    · exact of_whenRunning of_raise

theorem runCommand_answers (c : Command) (s : State) : Answers (runCommand c s) := by
  unfold runCommand
  split
  · exact exec_answers _ s
  · exact of_whenRunning of_raise

/-- Settles O12: waiting and reset answer, and so does every command (`exec_answers`). -/
theorem everyStepAnswers : Obligations.EveryStepAnswers := by
  intro s
  unfold step
  split
  · exact ⟨_, rfl⟩
  · exact runCommand_answers _ _
  · exact ⟨_, rfl⟩
  · exact ⟨_, rfl⟩

/-! ### What a step does to the banks -/

/-- A step keeps the configuration, and keeps the banks, makes them all dummy, or writes one as a command. -/
theorem step_cfg_banks (h : step s = .next t) : t.cfg = s.cfg ∧
    (t.banks = s.banks ∨ t.banks = List.replicate s.cfg.nbank none ∨
      ∃ i rest, WroteBank i { s with inputs := rest } t) := by
  rcases step_next h with ⟨-, rfl⟩ | ⟨c, rest, -, hc⟩ | ⟨rest, -, rfl⟩ | ⟨c, rest, -, rfl⟩
  · exact ⟨rfl, .inl rfl⟩
  · rcases runCommand_next hc with hs | ⟨i, -, ha | hw⟩
    · exact ⟨hs.cfg_eq, .inl hs.banks_eq⟩
    · exact ⟨ha.cfg_eq, .inl ha.banks_eq⟩
    · exact ⟨hw.cfg_eq, .inr (.inr ⟨i, rest, hw⟩)⟩
  · exact ⟨rfl, .inr (.inl rfl)⟩
  · exact ⟨rfl, .inr (.inl rfl)⟩

/-- Settles O20: reset and every outcome of a command keep the configuration. -/
theorem stepKeepsConfiguration : Obligations.StepKeepsConfiguration :=
  fun _ _ h => (step_cfg_banks h).1

/-! ### Array sizes (R29, R30) -/

theorem State.Shape.of_banks_eq (hs : s.Shape) (hc : t.cfg = s.cfg) (hb : t.banks = s.banks) : t.Shape where
  bank_count := by rw [hb, hc, hs.bank_count]
  slot_count := by rw [hb, hc]; exact hs.slot_count
  stat_count := by rw [hb, hc]; exact hs.stat_count

theorem shape_of_all_dummy (h : s.banks = List.replicate s.cfg.nbank none) : s.Shape where
  bank_count := by rw [h, List.length_replicate]
  slot_count bank hb := by rw [h] at hb; cases List.eq_of_mem_replicate hb
  stat_count bank hb := by rw [h] at hb; cases List.eq_of_mem_replicate hb

/-- A command that writes a bank leaves a bank of the right size there (`BankOrigin`). -/
theorem WroteBank.shape (h : WroteBank i s t) (hs : s.Shape) : t.Shape := by
  obtain ⟨-, d, o, -, -, ho, rfl⟩ := h
  have hsizes (bank : Bank) (hb : some bank ∈ s.banks.set d.toNat o) :
      bank.slots.length = s.cfg.nctx ∧ bank.gr.length = s.cfg.ngr := by
    rcases List.mem_or_eq_of_mem_set hb with hb | rfl
    · exact ⟨hs.slot_count bank hb, hs.stat_count bank hb⟩
    · exact (ho bank rfl).2 hs
  exact ⟨List.length_set.trans hs.bank_count, fun bank hb => (hsizes bank hb).1, fun bank hb => (hsizes bank hb).2⟩

theorem exec_cfg (h : exec i s = .next t) : t.cfg = s.cfg := by
  rcases exec_next h with hs | ha | hw
  · exact hs.cfg_eq
  · exact ha.cfg_eq
  · exact hw.cfg_eq

theorem exec_shape (h : exec i s = .next t) (hs : s.Shape) : t.Shape := by
  rcases exec_next h with hst | ha | hw
  · exact hs.of_banks_eq hst.cfg_eq hst.banks_eq
  · exact hs.of_banks_eq ha.cfg_eq ha.banks_eq
  · exact hw.shape hs

/-- Settles O14: the sizes stay where the banks stay or are all dummy, and `WroteBank.shape` has the rest. -/
theorem stepKeepsShape : Obligations.StepKeepsShape := by
  intro s t hs h
  obtain ⟨hc, hb | hb | ⟨i, rest, hw⟩⟩ := step_cfg_banks h
  · exact hs.of_banks_eq hc hb
  · exact shape_of_all_dummy (hc ▸ hb)
  · exact hw.shape ⟨hs.bank_count, hs.slot_count, hs.stat_count⟩

/-! ### Invariants of every slot (R35, R37) -/

/-- A property of slots that every `SlotOrigin` keeps holds of every slot after a step when it does before. -/
theorem step_keeps_slots {P : Config → Slot → Prop} (hP : ∀ (s : State) (i : Instr) (x : Slot),
      (∀ b j y, s.slotAt b j = some y → P s.cfg y) → SlotOrigin s i x → P s.cfg x)
    (hs : ∀ b j y, s.slotAt b j = some y → P s.cfg y) (h : step s = .next t) {n j : Nat} {x : Slot}
    (hx : t.slotAt n j = some x) : P t.cfg x := by
  obtain ⟨hc, hb | hb | ⟨i, rest, hw⟩⟩ := step_cfg_banks h
  · rw [hc]
    exact hs n j x (slotAt_congr hb n j ▸ hx)
  · obtain ⟨bank, hbank, -⟩ := slotAt_eq_some hx
    exact absurd (bankAt_of_all_dummy hb n ▸ hbank) (Option.some_ne_none bank).symm
  · rw [hc]
    exact hP { s with inputs := rest } i x hs (hw.slot_origin hx)

/-- R37: a rate is kept, zeroed, or set to a valid one. -/
theorem SlotOrigin.rate {x : Slot} (h : SlotOrigin s i x)
    (hs : ∀ b j y, s.slotAt b j = some y → y.w = 0 ∨ validRate s.cfg y.w = true) :
    x.w = 0 ∨ validRate s.cfg x.w = true := by
  cases h with
  | kept h => exact hs _ _ _ h
  | zeroed => exact .inl rfl
  | rated _ _ hr => exact .inr hr
  | seeded _ _ _ _ _ h | updated _ _ _ _ h | stored _ _ h => exact (hs _ _ _ h :)
  | rom _ _ _ _ _ hr => exact .inr hr

/-- Settles O16: every slot left by a step has the rate of its origin. -/
theorem stepKeepsRates : Obligations.StepKeepsRates := by
  intro s t hs h b j x hx
  exact step_keeps_slots (P := fun c x => x.w = 0 ∨ validRate c x.w = true) (fun _ _ _ hs ho => ho.rate hs) hs h hx

/-! ### `HALT` and `FCODE` (R33) -/

/-- Fault entry sets both, answering sets neither. -/
theorem runCommand_haltInvariant (hs : s.HaltInvariant) (h : runCommand c s = .next t) : t.HaltInvariant := by
  rcases runCommand_completed h with (⟨-, rfl⟩ | ⟨-, v, rfl⟩) | ⟨_, -, _, _, -, hf, hh, -⟩
  · exact hs
  · have hv : v.code ≠ 0 := fun h0 => absurd v.code_range.1 (by rw [h0]; decide)
    exact iff_of_true rfl hv
  · rw [State.HaltInvariant, hf, hh]
    exact hs

/-- Settles O17: reset clears both, and `runCommand_haltInvariant` has the commands. -/
theorem stepKeepsHaltIffCode : Obligations.StepKeepsHaltIffCode := by
  intro s t hs h
  have hclear : (false = true) ↔ ((0 : Byte) ≠ 0) := by decide
  rcases step_next h with ⟨-, rfl⟩ | ⟨c, rest, -, hc⟩ | ⟨rest, -, rfl⟩ | ⟨c, rest, -, rfl⟩
  · exact hs
  · exact runCommand_haltInvariant (s := { s with inputs := rest }) hs hc
  · exact hclear
  · exact hclear

end Sys2Proof.Machine
end

section
/-! The update of one estimate (41_probability_model.md R110 to R112): its arithmetic, bounds and fixed points. -/

namespace Sys2Proof.Machine

variable {p : Estimate} {prec r : Nat} {bin : Bool}

/-! ### Masking as a quotient (R6) -/

/-- Masking drops the remainder by the weight of the mask's lowest bit. -/
theorem and_maskOf {n : Nat} (hn : n < 2 ^ 15) (prec : Nat) :
    n &&& maskOf prec = n / 2 ^ (15 - prec) * 2 ^ (15 - prec) := by
  refine Nat.eq_of_testBit_eq fun i => ?_
  simp only [maskOf, Nat.testBit_and, Nat.testBit_mul_two_pow, Nat.testBit_div_two_pow, Nat.testBit_two_pow_sub_one]
  by_cases hi : i < 15
  · by_cases hk : 15 - prec ≤ i
    · have hlt : i - (15 - prec) < prec := by omega
      simp [hk, hlt, Nat.sub_add_cancel hk]
    · simp [hk]
  · have hbit : n.testBit i = false :=
      Nat.testBit_lt_two_pow (hn.trans_le (Nat.pow_le_pow_right (by decide) (by omega)))
    have hk : 15 - prec ≤ i := by omega
    simp [hbit, hk, Nat.sub_add_cancel hk]

theorem and_fieldMask_toNat (v : Estimate) (prec : Nat) : (v &&& fieldMask prec).toNat = v.toNat &&& maskOf prec := by
  rw [and_fieldMask_eq_masked, masked, BitVec.toNat_ofNat, Nat.mod_eq_of_lt (Nat.and_le_left.trans_lt v.isLt)]

/-! ### The update on naturals (R110) -/

/-- Taking away a fraction is monotone. -/
theorem sub_div_mono {m n : Nat} (q : Nat) (h : m ≤ n) : m - m / q ≤ n - n / q := by
  rcases Nat.eq_zero_or_pos q with rfl | hq
  · simpa using h
  · have hle : n ≤ m + (n - m) * q := by
      have := Nat.le_mul_of_pos_right (n - m) hq
      omega
    have hdiv : n / q ≤ m / q + (n - m) := by
      rw [← Nat.add_mul_div_right _ _ hq]
      exact Nat.div_le_div_right hle
    have := Nat.div_le_self n q
    omega

/-- On a multiple of the mask's lowest bit, the update works on the quotients. -/
theorem updated_eq {n : Nat} (hlt : n < 2 ^ 15) (hn : n % 2 ^ (15 - prec) = 0) (r : Nat) (bin : Bool) :
    updated n prec r bin = (n / 2 ^ (15 - prec) - n / 2 ^ (15 - prec) / 2 ^ r +
      if bin then 32767 / 2 ^ (15 - prec) / 2 ^ r else 0) * 2 ^ (15 - prec) := by
  have hshift {v : Nat} (hv : v < 2 ^ 15) :
      v >>> r &&& maskOf prec = v / 2 ^ (15 - prec) / 2 ^ r * 2 ^ (15 - prec) := by
    rw [and_maskOf (Nat.shiftRight_le v r |>.trans_lt hv), Nat.shiftRight_eq_div_pow, Nat.div_right_comm]
  have hmul : n / 2 ^ (15 - prec) * 2 ^ (15 - prec) = n := Nat.div_mul_cancel (Nat.dvd_of_mod_eq_zero hn)
  rw [updated, hshift hlt, hshift (by decide), Nat.add_mul, Nat.sub_mul, hmul]
  cases bin <;> simp

/-- The update does not wrap (R111). -/
theorem updated_le {n : Nat} (hlt : n < 2 ^ 15) (hn : n % 2 ^ (15 - prec) = 0) : updated n prec r bin ≤ 32767 := by
  have hmono := sub_div_mono (2 ^ r) (Nat.div_le_div_right (c := 2 ^ (15 - prec)) (show n ≤ 32767 by omega))
  have hself := Nat.div_le_self (32767 / 2 ^ (15 - prec)) (2 ^ r)
  rw [updated_eq hlt hn]
  refine le_trans (Nat.mul_le_mul_right _ ?_) (Nat.div_mul_le_self 32767 (2 ^ (15 - prec)))
  cases bin with
  | false => exact hmono.trans (Nat.sub_le _ _)
  | true => exact Nat.add_le_of_le_sub hself hmono

theorem updated_mod {n : Nat} (hlt : n < 2 ^ 15) (hn : n % 2 ^ (15 - prec) = 0) :
    updated n prec r bin % 2 ^ (15 - prec) = 0 := by
  rw [updated_eq hlt hn, Nat.mul_mod_left]

theorem shiftRight_and_le (n r m : Nat) : n >>> r &&& m ≤ n := Nat.and_le_left.trans (Nat.shiftRight_le n r)

/-- The model's update of a field zero outside its mask is the one on naturals. -/
theorem updateEstimate_toNat (h : p &&& ~~~fieldMask prec = 0) (r : Nat) (bin : Bool) :
    (updateEstimate (fieldMask prec) r bin p).toNat = updated p.toNat prec r bin := by
  have hle := updated_le (r := r) (bin := bin) p.isLt ((outside_mask_zero_iff p prec).mp h)
  have hd : (p >>> r &&& fieldMask prec).toNat = p.toNat >>> r &&& maskOf prec := by
    rw [and_fieldMask_toNat, BitVec.toNat_ushiftRight]
  have ha : (if bin then 32767#15 >>> r &&& fieldMask prec else 0 : Estimate).toNat =
      if bin then 32767 >>> r &&& maskOf prec else 0 := by
    cases bin
    · rfl
    · exact and_fieldMask_toNat _ _ |>.trans (by rw [BitVec.toNat_ushiftRight]; rfl)
  rw [updateEstimate, BitVec.toNat_add, BitVec.toNat_sub_of_le (BitVec.le_def.mpr (hd ▸ shiftRight_and_le ..)), hd, ha]
  exact Nat.mod_eq_of_lt (Nat.lt_succ_of_le hle)

/-- The update keeps a field zero outside its mask (R35). -/
theorem updateEstimate_outside_mask (h : p &&& ~~~fieldMask prec = 0) (r : Nat) (bin : Bool) :
    updateEstimate (fieldMask prec) r bin p &&& ~~~fieldMask prec = 0 := by
  rw [outside_mask_zero_iff, updateEstimate_toNat h]
  exact updated_mod p.isLt ((outside_mask_zero_iff p prec).mp h)

/-! ### Full precision -/

theorem outside_full_mask (p : Estimate) : p &&& ~~~fieldMask 15 = 0 :=
  (outside_mask_zero_iff p 15).mpr (Nat.mod_one _)

/-- A number less its `n`-th part. -/
def shrink (n x : Nat) : Nat := x - x / n

/-- Bin 0 takes the `2^r`-th part away. -/
theorem updateEstimate_false_toNat (r : Nat) (p : Estimate) :
    (updateEstimate (fieldMask 15) r false p).toNat = shrink (2 ^ r) p.toNat := by
  rw [updateEstimate_toNat (outside_full_mask p), updated_eq p.isLt (Nat.mod_one _)]
  simp [shrink]

/-- The two bins are mirror images: bin 1 does to the complement what bin 0 does to the field. -/
theorem updateEstimate_true_not (r : Nat) (p : Estimate) :
    updateEstimate (fieldMask 15) r true (~~~p) = ~~~updateEstimate (fieldMask 15) r false p := by
  have hdisj : ~~~p >>> r &&& p >>> r = 0#15 := by rw [← BitVec.ushiftRight_and_distrib]; simp
  have hsum : ~~~p >>> r + p >>> r = 32767#15 >>> r := by
    rw [BitVec.add_eq_or_of_and_eq_zero _ _ hdisj, ← BitVec.ushiftRight_or_distrib]
    simp
  simp only [updateEstimate, and_fieldMask_15, ← hsum, BitVec.not_eq_neg_add, Bool.false_eq_true, if_true, if_false]
  ring

theorem toNat_not (p : Estimate) : (~~~p).toNat = 32767 - p.toNat := BitVec.toNat_not

/-- A field above 0 stays above 0: bin 0 takes at most half away. -/
theorem updateEstimate_pos (hr : 1 ≤ r) (hp : 0 < p.toNat) (bin : Bool) :
    0 < (updateEstimate (fieldMask 15) r bin p).toNat := by
  have hhalf : p.toNat / 2 ^ r < p.toNat := Nat.div_lt_self hp (Nat.one_lt_two_pow (by omega))
  rw [updateEstimate_toNat (outside_full_mask p), updated_eq p.isLt (Nat.mod_one _)]
  simp only [Nat.sub_self, Nat.pow_zero, Nat.div_one, Nat.mul_one]
  omega

/-- A field below 32767 stays below: bin 0 only takes away, and bin 1 mirrors bin 0. -/
theorem updateEstimate_lt (hr : 1 ≤ r) (hp : p.toNat < 32767) (bin : Bool) :
    (updateEstimate (fieldMask 15) r bin p).toNat < 32767 := by
  cases bin with
  | false =>
    rw [updateEstimate_false_toNat]
    exact (Nat.sub_le _ _).trans_lt hp
  | true =>
    have hpos : 0 < (~~~p).toNat := by rw [toNat_not]; omega
    have hq := updateEstimate_pos hr hpos false
    rw [← BitVec.not_not (b := p), updateEstimate_true_not, toNat_not]
    omega

/-- Settles O51: the update is the one on naturals, where what is taken away is no more than what is there. -/
theorem updateStaysInRange : Obligations.UpdateStaysInRange := by
  intro p prec r bin _ _ hp
  refine ⟨_, rfl, ?value, updateEstimate_outside_mask hp r bin, ?interior⟩
  case value =>
    have hle := shiftRight_and_le p.toNat r (maskOf prec)
    rw [updateEstimate_toNat hp, updated]
    split <;> omega
  case interior =>
    rintro rfl hr
    exact ⟨fun h => updateEstimate_pos hr h bin, fun h => updateEstimate_lt hr h bin⟩

/-! ### Repeated updates (R112) -/

theorem shrink_of_lt {n x : Nat} (h : x < n) : shrink n x = x := by rw [shrink, Nat.div_eq_of_lt h, Nat.sub_zero]

/-- Shrinking comes down to `n - 1` and stays there. -/
theorem iterate_shrink {n x : Nat} (hn : 1 ≤ n) (hx : n - 1 ≤ x) : ∃ k, ∀ m, k ≤ m → (shrink n)^[m] x = n - 1 := by
  induction x using Nat.strong_induction_on with
  | _ x ih =>
    rcases Nat.lt_or_ge x n with hlt | hge
    · obtain rfl : x = n - 1 := by omega
      exact ⟨0, fun m _ => Function.iterate_fixed (shrink_of_lt hlt) m⟩
    · have hlow : n - 1 ≤ shrink n x := by simpa [shrink, Nat.div_self hn] using sub_div_mono n hge
      have hdown : shrink n x < x := Nat.sub_lt (hn.trans hge) (Nat.div_pos hge hn)
      obtain ⟨k, hk⟩ := ih _ hdown hlow
      refine ⟨k + 1, fun m hm => ?_⟩
      obtain ⟨m, rfl⟩ : ∃ m', m = m' + 1 := ⟨m - 1, by omega⟩
      exact hk m (by omega)

theorem iterate_false_toNat (r m : Nat) (p : Estimate) :
    ((updateEstimate (fieldMask 15) r false)^[m] p).toNat = (shrink (2 ^ r))^[m] p.toNat :=
  Function.Semiconj.iterate_right (f := BitVec.toNat) (updateEstimate_false_toNat r) m p

theorem iterate_true_not (r m : Nat) (p : Estimate) :
    (updateEstimate (fieldMask 15) r true)^[m] (~~~p) = ~~~(updateEstimate (fieldMask 15) r false)^[m] p :=
  (Function.Semiconj.iterate_right (f := (~~~·)) (fun p => (updateEstimate_true_not r p).symm) m p).symm

theorem updateEstimate_false_of_lt (h : p.toNat < 2 ^ r) : updateEstimate (fieldMask 15) r false p = p :=
  BitVec.eq_of_toNat_eq ((updateEstimate_false_toNat r p).trans (shrink_of_lt h))

/-- Settles O52: bin 0 by `iterate_shrink`, bin 1 on the complement. -/
theorem updateReachesFixedPoints : Obligations.UpdateReachesFixedPoints := by
  intro r p _ hr
  have hpow : 2 ^ r ≤ 2 ^ 15 := Nat.pow_le_pow_right (by decide) hr
  have hone : 1 ≤ 2 ^ r := Nat.one_le_two_pow
  have hlt := p.isLt
  refine ⟨fun h => ?reach0, updateEstimate_false_of_lt, fun h => ?reach1, fun h => ?stay1⟩
  case reach0 =>
    obtain ⟨n, hn⟩ := iterate_shrink hone h
    exact ⟨n, fun m hm => (iterate_false_toNat r m p).trans (hn m hm)⟩
  case reach1 =>
    obtain ⟨n, hn⟩ := iterate_shrink (x := (~~~p).toNat) hone (by rw [toNat_not]; omega)
    refine ⟨n, fun m hm => ?_⟩
    rw [← BitVec.not_not (b := p), iterate_true_not, toNat_not, iterate_false_toNat, hn m hm]
    omega
  case stay1 =>
    have hstay : updateEstimate (fieldMask 15) r false (~~~p) = ~~~p :=
      updateEstimate_false_of_lt (by rw [toNat_not]; omega)
    rw [← BitVec.not_not (b := p), updateEstimate_true_not, hstay]

end Sys2Proof.Machine
end

section
/-! PUPD and the invariants of the estimates: the mask invariant (10_state.md R35) and the range invariant (R36). -/

namespace Sys2Proof.Machine

variable {s t : State} {i : Instr} {b j : Nat} {x : Slot} {c : Config}

/-! ### PUPD (R110) -/

theorem ratePair_eq {w : Byte} {o : Option RatePair} (h : c.ratePairs[w.toNat]? = some o) : ratePair c w = o :=
  (Vector.getElem?_eq_some_iff.mp h).2

/-- Settles O31: the body of PUPD raises `BadRate` or writes the updated slot, which `updateEstimate_toNat` reads as
numbers. -/
theorem pupdMovesEstimates : Obligations.PupdMovesEstimates := by
  intro s b off sub bin p hr hp
  refine ⟨fun hn => ?badRate, fun pair hs hm => ?moves⟩
  case badRate =>
    rw [← raise_badRate]
    exact withSlot_of_body hr hp fun _ => by rw [ratePair_eq hn]; rfl
  case moves =>
    obtain ⟨t, ht, hc⟩ : ∃ t, execPupd b off sub bin s = .next t ∧
        CompletesOnSlot s t b.toNat (off.toNat + sub.toNat) (updateSlot s.cfg pair bin p) :=
      withSlot_completes hr hp fun _ => by rw [ratePair_eq hs]
    exact ⟨t, _, ht, hc, rfl, updateEstimate_toNat hm.1 pair.r0 bin, updateEstimate_toNat hm.2 pair.r1 bin⟩

/-! ### The mask invariant (R35) -/

theorem zeroSlot_masked (c : Config) : zeroSlot.Masked c := ⟨BitVec.zero_and, BitVec.zero_and⟩

theorem seedSlot_masked (c : Config) (qp seed : Byte) (x : Slot) : (seedSlot c qp seed x).Masked c :=
  ⟨masked_outside_zero _ _, masked_outside_zero _ _⟩

theorem storeWord_masked (c : Config) (w : Word) (x : Slot) : (storeWord c w x).Masked c :=
  ⟨masked_outside_zero _ _, masked_outside_zero _ _⟩

theorem updateSlot_masked (pair : RatePair) (bin : Bool) (h : x.Masked c) : (updateSlot c pair bin x).Masked c :=
  ⟨updateEstimate_outside_mask h.1 _ _, updateEstimate_outside_mask h.2 _ _⟩

/-- R35: a slot is kept, masked when it is stored or seeded, or updated. -/
theorem SlotOrigin.masked (h : SlotOrigin s i x) (hs : ∀ b j y, s.slotAt b j = some y → y.Masked s.cfg) :
    x.Masked s.cfg := by
  cases h with
  | kept h => exact hs _ _ _ h
  | zeroed => exact zeroSlot_masked _
  | seeded => exact seedSlot_masked _ _ _ _
  | rated _ h => exact (hs _ _ _ h :)
  | updated _ _ _ _ h => exact updateSlot_masked _ _ (hs _ _ _ h)
  | stored => exact storeWord_masked _ _ _
  | rom => exact (seedSlot_masked _ _ _ zeroSlot :)

/-- Settles O15: every slot left by a step is masked as its origin is. -/
theorem stepKeepsMasks : Obligations.StepKeepsMasks := by
  intro s t hs h b j x hx
  exact step_keeps_slots (P := fun c x => x.Masked c) (fun _ _ _ hs ho => ho.masked hs) hs h hx

/-! ### The range invariant (R36) -/

/-- The configuration is well-formed and keeps all 15 bits of both fields. -/
structure FullPrecision (c : Config) : Prop where
  wf : c.WF
  prec0 : c.prec0 = 15
  prec1 : c.prec1 = 15

/-- R104 (d): the count of every seed is strictly inside. -/
theorem FullPrecision.seedSlot_interior (hc : FullPrecision c) (qp seed : Byte) (x : Slot) :
    (seedSlot c qp seed x).Interior := by
  obtain ⟨hlow, hhigh⟩ := hc.wf.count_interior _ (initialStateIndex c qp seed).isLt
  have hcount : 0 < (initialCount c qp seed).toNat ∧ (initialCount c qp seed).toNat < 32767 :=
    ⟨hlow, Nat.lt_succ_of_le hhigh⟩
  rw [seedSlot, hc.prec0, hc.prec1, and_fieldMask_15]
  exact ⟨hcount.1, hcount.2, hcount.1, hcount.2⟩

theorem FullPrecision.romSlot_interior (hc : FullPrecision c) (qp : Byte) (row : RomRow) (e : ContextEntry) :
    (romSlot c qp row e).Interior :=
  hc.seedSlot_interior qp (romByte row e) zeroSlot

/-- R107 (e), R111: a valid rate shifts by at least 1, so an update keeps both fields strictly inside. -/
theorem FullPrecision.updateSlot_interior (hc : FullPrecision c) {pair : RatePair} (bin : Bool)
    (hp : ratePair c x.w = some pair) (hx : x.Interior) : (updateSlot c pair bin x).Interior := by
  obtain ⟨h0, -, h1, -⟩ := hc.wf.shift_range _ x.w.isLt pair hp
  obtain ⟨hlow0, hhigh0, hlow1, hhigh1⟩ := hx
  rw [updateSlot, hc.prec0, hc.prec1]
  exact ⟨updateEstimate_pos h0 hlow0 bin, updateEstimate_lt h0 hhigh0 bin, updateEstimate_pos h1 hlow1 bin,
    updateEstimate_lt h1 hhigh1 bin⟩

/-- What a command leaves in a slot is strictly inside when it stores nothing raw there and what it starts from is. -/
theorem SlotAfter.interior (hc : FullPrecision s.cfg) (h : SlotAfter s b j i x) (hraw : storesRawAt i b j = false)
    (hkept : copiesFrom i b j = none → seedsAt i b j = false → s.InteriorAt b j)
    (hcopied : ∀ n, copiesFrom i b j = some n → s.InteriorAt n.toNat j) : x.Interior := by
  cases h with
  | kept hs hn h => exact hkept hn hs _ h
  | copied _ hn h => exact hcopied _ hn _ h
  | seeded => exact hc.seedSlot_interior _ _ _
  | rom => exact hc.romSlot_interior _ _ _
  | rated hs hn h => exact (hkept hn hs _ h :)
  | updated _ _ _ _ h hp => exact hc.updateSlot_interior _ hp (hkept rfl rfl _ h)
  | raw hi => exact absurd (hraw.symm.trans hi) Bool.false_ne_true

theorem storesRawAt_of_copies {n : BankNo} (h : copiesFrom i b j = some n) : storesRawAt i b j = false := by
  cases i with
  | bcpy | bcpr => rfl
  | _ => cases h

theorem of_seedsAt (h : seedsAt i b j = true) : storesRawAt i b j = false ∧ copiesFrom i b j = none := by
  cases i with
  | pinit | binit => exact ⟨rfl, rfl⟩
  | _ => cases h

/-- A command that completed did not stop. -/
theorem exec_slotAfter (hs : s.Shape) (h : exec i s = .next t) (ht : t.halt = false) (hx : t.slotAt b j = some x) :
    SlotAfter s b j i x :=
  (exec_slotAt hs h hx).resolve_left fun hst => Bool.false_ne_true (ht.symm.trans hst.halted)

/-- Neither raw state nor a copy: the slot stays strictly inside, whether or not the command stops. -/
theorem exec_interiorAt (hc : FullPrecision s.cfg) (hs : s.Shape) (h : exec i s = .next t)
    (hraw : storesRawAt i b j = false) (hcopy : copiesFrom i b j = none) (hin : s.InteriorAt b j) :
    t.InteriorAt b j := by
  intro x hx
  rcases exec_slotAt hs h hx with hst | ha
  · exact hin x (slotAt_congr hst.banks_eq b j ▸ hx)
  · exact ha.interior hc hraw (fun _ _ => hin) fun n hn => absurd (hcopy ▸ hn) (Option.some_ne_none n).symm

/-- PINIT of the slot or BINIT of the bank. -/
theorem exec_seeds_interiorAt (hc : FullPrecision s.cfg) (hs : s.Shape) (h : exec i s = .next t)
    (hseed : seedsAt i b j = true) (ht : t.halt = false) : t.InteriorAt b j := by
  intro x hx
  obtain ⟨hraw, hcopy⟩ := of_seedsAt hseed
  exact (exec_slotAfter hs h ht hx).interior hc hraw (fun _ hn => absurd (hseed.symm.trans hn) Bool.false_ne_true.symm)
    fun n hn => absurd (hcopy ▸ hn) (Option.some_ne_none n).symm

/-- Settles O53: each clause says which start of `SlotAfter.interior` there is. -/
theorem codingKeepsEstimatesInterior : Obligations.CodingKeepsEstimatesInterior := by
  intro i s t b j hwf h0 h1 hs h
  have hc : FullPrecision s.cfg := ⟨hwf, h0, h1⟩
  refine ⟨exec_interiorAt hc hs h, fun n hn ht hin x hx => ?copied, exec_seeds_interiorAt hc hs h⟩
  refine (exec_slotAfter hs h ht hx).interior hc (storesRawAt_of_copies hn)
    (fun hnone => absurd (hn ▸ hnone) (Option.some_ne_none n)) fun m hm => ?_
  obtain rfl : n = m := Option.some.inj (hn.symm.trans hm)
  exact hin

/-! ### Runs -/

theorem execAll_cons {is : List Instr} {u : State} (h : execAll (i :: is) s = .next u) :
    ∃ t, exec i s = .next t ∧ execAll is t = .next u := by
  obtain ⟨t, ht⟩ := exec_answers i s
  rw [execAll, ht] at h
  exact ⟨t, ht, h⟩

/-- A property that each command of a list keeps holds after the whole list. -/
theorem execAll_induction {P : State → Prop} {is : List Instr}
    (hstep : ∀ i ∈ is, ∀ s t, P s → exec i s = .next t → P t) (hs : P s) (h : execAll is s = .next t) : P t := by
  induction is generalizing s with
  | nil => cases h; exact hs
  | cons i is ih =>
    obtain ⟨u, hu, h⟩ := execAll_cons h
    exact ih (fun k hk => hstep k (List.mem_cons_of_mem i hk)) (hstep i List.mem_cons_self s u hs hu) h

/-- Settles O54: PINIT or BINIT puts the slot strictly inside, and each later command keeps it there. -/
theorem seededEstimatesStayInterior : Obligations.SeededEstimatesStayInterior := by
  intro i is s t u b j hwf h0 h1 hs hseed h ht hclean hrun
  have hc : FullPrecision s.cfg := ⟨hwf, h0, h1⟩
  have hstart : FullPrecision t.cfg ∧ t.Shape ∧ t.InteriorAt b j :=
    ⟨exec_cfg h ▸ hc, exec_shape h hs, exec_seeds_interiorAt hc hs h hseed ht⟩
  have hstep (k : Instr) (hk : k ∈ is) (s t : State) (hP : FullPrecision s.cfg ∧ s.Shape ∧ s.InteriorAt b j)
      (hkt : exec k s = .next t) : FullPrecision t.cfg ∧ t.Shape ∧ t.InteriorAt b j := by
    obtain ⟨hc, hs, hin⟩ := hP
    obtain ⟨hraw, hcopy⟩ := hclean k hk
    exact ⟨exec_cfg hkt ▸ hc, exec_shape hkt hs, exec_interiorAt hc hs hkt hraw hcopy hin⟩
  obtain ⟨-, -, hin⟩ := execAll_induction hstep hstart hrun
  exact hin

end Sys2Proof.Machine
end

section
/-! Results of reading a slot, a width or a status register (41_probability_model.md R116, R120; 44_renorm.md R190;
45_system.md R201), and the port outside commands (70_reset_and_hazards.md R240, R241). -/

namespace Sys2Proof.Machine

variable {s : State} {n : Half}

/-! ### PQRY and PEST (R116, R120) -/

/-- Settles O34: the body of PQRY answers the query word, read as a number by `queryWord_eq`. -/
theorem pqryReturnsCombinedEstimate : Obligations.PqryReturnsCombinedEstimate := by
  intro s b off sub p hr hp
  rw [← queryWord_eq, ← finish_eq]
  exact withSlot_of_body hr hp fun _ => rfl

/-- Settles O35: the row PEST takes is the one `slotQ8_toNat` names. -/
theorem pestReturnsBinCost : Obligations.PestReturnsBinCost := by
  intro s b off sub bin p hr hp
  rw [← slotQ8_toNat]
  refine ⟨_, Vector.getElem?_eq_getElem (slotQ8 p).isLt, ?_⟩
  rw [← finish_eq]
  exact withSlot_of_body hr hp fun _ => rfl

/-! ### RNM (R190) -/

theorem rangeClass_toNat (w : Byte) : (rangeClass w).toNat = w.toNat / 8 := by
  have := w.isLt
  rw [rangeClass, toNat_slice]
  omega

/-- The nine bits of the shifted width as a number. -/
theorem renormValue_toNat (c : Config) (w : Byte) :
    (renormValue c w).toNat = w.toNat * 2 ^ (renormShift c w).toNat % 2 ^ 9 := by
  rw [renormValue, BitVec.toNat_shiftLeft, BitVec.toNat_setWidth, Nat.mod_eq_of_lt (w.isLt.trans (by decide)),
    Nat.shiftLeft_eq]

theorem renormWord_eq (c : Config) (w : Byte) : renormWord c w = BitVec.ofNat 32
    (w.toNat * 2 ^ (renormShift c w).toNat % 2 ^ 9 * 2 ^ 16 + (renormShift c w).toNat) := by
  apply BitVec.eq_of_toNat_eq
  have hv := (renormValue c w).isLt
  have hs := (renormShift c w).isLt
  rw [← renormValue_toNat]
  simp only [renormWord, toNat_append_add, BitVec.toNat_ofNat]
  omega

/-- Settles O50: the shift is the entry of the class (`rangeClass_toNat`), the word as `renormWord_eq` reads it. -/
theorem rnmReturnsShift : Obligations.RnmReturnsShift := by
  intro s w hr
  rw [← rangeClass_toNat]
  refine ⟨renormShift s.cfg w, Vector.getElem?_eq_getElem _, ?_⟩
  rw [← renormWord_eq, ← finish_eq]
  exact whenRunning_running hr _

/-! ### RDSR (R32, R201) -/

theorem exec_rdsr_register {v : Word} (h : statusRegister s n = some v) :
    exec (.rdsr n) s = .next (answered s 0 v []) := by
  rw [← finish_eq]
  simp only [exec, execRdsr, h]

/-- Bit `b` of the `LIVE` bits is `LIVE` of bank `b` (R32, register 5). -/
theorem testBit_liveBits (banks : List (Option Bank)) (b : Nat) :
    (liveBits banks).testBit b = (banks[b]?).join.isSome := by
  induction banks generalizing b with
  | nil => simp [liveBits]
  | cons o banks ih =>
    rw [liveBits, Nat.add_comm]
    cases b with
    | zero => cases o <;> simp
    | succ b =>
      have hhalf : (2 * liveBits banks + o.isSome.toNat) / 2 = liveBits banks := by cases o <;> simp; omega
      rw [Nat.testBit_succ, hhalf, ih, List.getElem?_cons_succ]

theorem liveBits_getLsbD (h : s.banks.length ≤ 32) (b : Nat) :
    (BitVec.ofNat 32 (liveBits s.banks)).getLsbD b = s.liveAt b := by
  rw [BitVec.getLsbD_ofNat, testBit_liveBits]
  by_cases hb : b < 32
  · simp [hb, State.liveAt, State.bankAt]
  · have hnone : s.banks[b]? = none := List.getElem?_eq_none (by omega)
    simp [hb, State.liveAt, State.bankAt, hnone]

/-- A number that fits its field is the register widened from it. -/
theorem field_toNat {w v : Nat} (hv : v < 2 ^ w) (hw : w ≤ 32) : ((BitVec.ofNat w v).setWidth 32).toNat = v := by
  rw [BitVec.toNat_setWidth, BitVec.toNat_ofNat, Nat.mod_eq_of_lt hv,
    Nat.mod_eq_of_lt (hv.trans_le (Nat.pow_le_pow_right (by decide) hw))]

/-- Register 6 as a number. -/
theorem haltRegister_toNat (h : Bool) (fcode : Byte) :
    (0#23 ++ BitVec.ofBool h ++ fcode : Word).toNat = fcode.toNat + 2 ^ 8 * h.toNat := by
  simp only [toNat_append_add, BitVec.toNat_ofBool, BitVec.toNat_ofNat]
  omega

/-- Register 9 as a number. -/
theorem precisionRegister_toNat {scale prec1 prec0 : Nat} (hs : scale < 2 ^ 5) (h1 : prec1 < 2 ^ 4)
    (h0 : prec0 < 2 ^ 4) : (0#19 ++ BitVec.ofNat 5 scale ++ BitVec.ofNat 4 prec1 ++ BitVec.ofNat 4 prec0 : Word).toNat =
      prec0 + 2 ^ 4 * prec1 + 2 ^ 8 * scale := by
  simp only [toNat_append_add, BitVec.toNat_ofNat, Nat.mod_eq_of_lt hs, Nat.mod_eq_of_lt h1, Nat.mod_eq_of_lt h0]
  omega

/-- R53: the ten registers are there. -/
theorem exists_statusRegister (s : State) (h : n.toNat < 10) : ∃ v, statusRegister s n = some v := by
  unfold statusRegister
  generalize n.toNat = k at h ⊢
  interval_cases k <;> exact ⟨_, rfl⟩

/-- Settles O8: register by register, each field holds its value under a well-formed configuration. -/
theorem rdsrReadsRegisters : Obligations.RdsrReadsRegisters := by
  intro s n hwf hs hn
  obtain ⟨v, hv⟩ := exists_statusRegister s hn
  refine ⟨v, exec_rdsr_register hv, ?nctx, ?nbank, ?ngrp, ?ngr, ?qpMax, ?live, ?halt, ?finfo0, ?finfo1, ?precisions⟩
  all_goals rintro rfl; cases hv
  case nctx => exact field_toNat (Nat.lt_succ_of_le hwf.nctx_range.2) (by decide)
  case nbank => exact field_toNat (hwf.nbank_range.2.trans_lt (by decide)) (by decide)
  case ngrp => exact field_toNat (Nat.lt_succ_of_le hwf.ngrp_range.2) (by decide)
  case ngr => exact field_toNat (Nat.lt_succ_of_le hwf.ngr_range.2) (by decide)
  case qpMax => exact field_toNat (Nat.lt_succ_of_le hwf.qpMax_range) (by decide)
  case live => exact liveBits_getLsbD (hs.bank_count ▸ hwf.nbank_range.2.trans (by decide))
  case halt => exact haltRegister_toNat s.halt s.fcode
  case finfo0 | finfo1 => rfl
  case precisions =>
    exact precisionRegister_toNat (Nat.lt_succ_of_le hwf.scale_range) (Nat.lt_succ_of_le hwf.prec1_range.2)
      (Nat.lt_succ_of_le hwf.prec0_range.2)

/-- Settles O9: there is no such register, and `IllegalCommand` takes the halves of the word (`pack_rdsr_eq`). -/
theorem rdsrBadNumberStops : Obligations.RdsrBadNumberStops := by
  intro s n hn
  have hexec : exec (.rdsr n) s = rejectCommand (encode (.rdsr n)) s := by
    simp only [exec, execRdsr, statusRegister_eq_none hn]
    rfl
  have hcw : (encode (.rdsr n)).cw.toNat = 0x70 * 2 ^ 56 + n.toNat * 2 ^ 32 := by
    have hlt := n.isLt
    rw [encode, pack_rdsr_eq, BitVec.toNat_ofNat]
    omega
  have hhigh : (encode (.rdsr n)).cw.toNat / 2 ^ 32 = 0x70000000 + n.toNat := by omega
  have hlow : (encode (.rdsr n)).cw.toNat % 2 ^ 32 = 0 := by omega
  rw [hexec]
  refine ⟨fun hh => whenRunning_halted hh _, fun hr => ?_⟩
  rw [rejectCommand_running hr, hhigh, hlow]
  rfl

/-! ### The step around commands -/

/-- Settles O5: a presented command that decodes is run as what it decodes to. -/
theorem stepExecutesDecodedCommand : Obligations.StepExecutesDecodedCommand :=
  fun _ _ _ _ hin hi => (step_command hin).trans (runCommand_of_decode hi)

/-- Settles O10: the three other arms of the step. -/
theorem portOutsideCommands : Obligations.PortOutsideCommands := by
  intro s rest c
  refine ⟨fun h => ?_, fun h => ⟨State.clear { s with inputs := rest }, ?_, rfl⟩,
    fun h => ⟨State.clearDuring { s with inputs := rest }, _, ?_, rfl⟩⟩
  all_goals rw [step, h]

end Sys2Proof.Machine
end

section
/-! The worked encodings (30_encoding.md R80), the state after reset (10_state.md R39) and the fixture (00_scope.md R7,
70_reset_and_hazards.md R242). -/

namespace Sys2Proof.Machine

variable {s : State} {cw : LongWord} {pl : List Word} {e : DecodeError} {q : Nat}

/-! ### The worked encodings (R80) -/

theorem decode_unassignedOpcode (h : Opcode.ofByte (fieldOpc cw) = none) :
    decode ⟨cw, pl⟩ = .error .unassignedOpcode := by
  simp only [decode, h]

theorem decode_reservedField {op : Opcode} (h : Opcode.ofByte (fieldOpc cw) = some op) (hz : cw &&& op.reserved ≠ 0) :
    decode ⟨cw, pl⟩ = .error .reservedField := by
  simp only [decode, h, if_neg hz]

/-- R77: a presented command that does not decode is `IllegalCommand` with the halves of its command word. -/
theorem step_of_decode_error (h : decode ⟨cw, pl⟩ = .error e) (hr : s.halt = false) :
    step { s with inputs := [.command ⟨cw, pl⟩] } = .next (faulted { s with inputs := [] } 1
      (BitVec.ofNat 32 (cw.toNat / 2 ^ 32)) (BitVec.ofNat 32 (cw.toNat % 2 ^ 32))) := by
  rw [step_command rfl, runCommand_of_not_decodes (by simp [h])]
  exact rejectCommand_running (s := { s with inputs := [] }) hr

/-- Settles O1: the legal words decode as computed, `BLD` with any payload words by the round trip; the two
illegal ones fail by a reserved field and by the opcode. -/
theorem workedEncodingsDecode : Obligations.WorkedEncodingsDecode := by
  refine ⟨rfl, rfl, rfl, rfl, rfl, rfl, rfl, fun x y z => ?load, rfl, rfl, fun pl s hr => ?reserved,
    fun pl s hr => ?opcode⟩
  case load =>
    have hword : packWord .bld 2 0 3 0 0 = 0x3620000300000000 := by decide
    have h := decodeInvertsEncode (.bld 2 [x, y, z]) rfl
    rwa [encode, lenField_of_length (a := 3) rfl, hword] at h
  case reserved => exact step_of_decode_error (decode_reservedField (op := .pinit) rfl (by decide)) hr
  case opcode => exact step_of_decode_error (decode_unassignedOpcode rfl) hr

/-! ### After reset (R39) -/

/-- Settles O18: every bank is dummy, so no slot and no statistics word is there to break an invariant. -/
theorem resetStateMeetsInvariants : Obligations.ResetStateMeetsInvariants := by
  have hdummy (b : Nat) : State.reset.bankAt b = none := bankAt_of_all_dummy rfl b
  have hslot (b i : Nat) : State.reset.slotAt b i = none := congrArg (Option.bind · _) (hdummy b)
  have hnone {b i : Nat} {x : Slot} (h : State.reset.slotAt b i = some x) : False :=
    absurd (hslot b i ▸ h) (Option.some_ne_none x).symm
  exact ⟨fun b => congrArg Option.isSome (hdummy b), hslot, fun b k => congrArg (Option.bind · _) (hdummy b),
    rfl, rfl, rfl, rfl, shape_of_all_dummy rfl, fun _ _ _ h => (hnone h).elim, fun _ _ _ h => (hnone h).elim,
    iff_of_false Bool.false_ne_true fun h => h rfl⟩

/-! ### The fixture (R7, R242) -/

theorem example1_bitCost (h : q < 256) : example1.bitCost[q] = freeCostRow q := Vector.getElem_ofFn h

/-- The cheaper of two free costs as a number: no wrap. -/
theorem cheaperCost_toNat (q : Nat) : (cheaperCost q).toNat =
    max 1 (min (Config.freeCost (2 * q)).toNat (Config.freeCost (2 * q + 1)).toNat) := by
  rw [cheaperCost, BitVec.toNat_ofNat]
  omega

/-- The dearer of two free costs as a number: no wrap. -/
theorem dearerCost_toNat (q : Nat) : (dearerCost q).toNat =
    max 1 (max (Config.freeCost (2 * q)).toNat (Config.freeCost (2 * q + 1)).toNat) := by
  rw [dearerCost, BitVec.toNat_ofNat]
  omega

theorem cheaperCost_le_dearerCost (q : Nat) : (cheaperCost q).toNat ≤ (dearerCost q).toNat := by
  rw [cheaperCost_toNat, dearerCost_toNat]
  exact max_le_max_left 1 min_le_max

/-- R107 (e): the default shifts are in 1..15. -/
theorem defaultRatePair_range {w : Nat} {p : RatePair} (h : defaultRatePair w = some p) :
    1 ≤ p.r0 ∧ p.r0 ≤ 15 ∧ 1 ≤ p.r1 ∧ p.r1 ≤ 15 := by
  unfold defaultRatePair at h
  split at h
  · cases h
  split at h
  · cases h
  · cases h; dsimp only; omega

/-- Settles O19: the tables by computation, the costs by their order whatever the free values are. -/
theorem fixtureIsWellFormed : Obligations.FixtureIsWellFormed where
  prec0_range := by decide
  prec1_range := by decide
  qpMax_range := by decide
  count_literals := by decide +kernel
  count_monotone := by
    have h : ∀ j : Fin 127, example1.stateToCount[j.val].toNat ≤ example1.stateToCount[j.val + 1].toNat := by
      decide +kernel
    exact fun j hj => h ⟨j, by omega⟩
  count_symmetric := by decide +kernel
  count_interior := by decide +kernel
  shift_range w h p hp := defaultRatePair_range ((Vector.getElem_ofFn h).symm.trans hp)
  printed_rates := by decide +kernel
  rom_rates := by decide +kernel
  cost_low q h := by
    rw [example1_bitCost (h.trans (by decide)), freeCostRow, if_pos h]
    exact cheaperCost_le_dearerCost q
  cost_high q h hq := by
    rw [example1_bitCost h, freeCostRow, if_neg hq.not_gt]
    exact cheaperCost_le_dearerCost q
  cost_positive q h := by
    have hc : 1 ≤ (cheaperCost q).toNat := by rw [cheaperCost_toNat]; exact le_max_left ..
    have hd : 1 ≤ (dearerCost q).toNat := hc.trans (cheaperCost_le_dearerCost q)
    rw [example1_bitCost h, freeCostRow]
    split
    · exact ⟨hc, hd⟩
    · exact ⟨hd, hc⟩
  scale_range := by decide
  nctx_range := by decide
  ngrp_range := by decide
  groups_cover := ⟨rfl, rfl⟩
  nbank_range := by decide
  ngr_range := by decide

end Sys2Proof.Machine
end

section
/-! The rollback of a snapshot (43_context_banks.md section 5), and reads that change nothing (20_memory.md R55). -/

namespace Sys2Proof.Machine

variable {s t : State} {i : Instr} {b dst src : BankNo} {off sub k : Half} {rs : List Response}

/-! ### BCPY (R155) -/

theorem not_stopped (ht : t.halt = false) : ¬Stopped s t := fun h => Bool.false_ne_true (ht.symm.trans h.halted)

/-- BCPY between bank numbers that are there. -/
theorem exec_bcpy_of_lt (hr : s.halt = false) (hd : dst.toNat < s.banks.length) (hs : src.toNat < s.banks.length) :
    exec (.bcpy dst src) s = done (if dst = src then s else s.putBank dst (s.bankAt src.toNat)) := by
  rw [exec, execBcpy, whenRunning_running hr, withBankNo_of_lt hd, withBankNo_of_lt hs]

/-- A BCPY that did not stop found both bank numbers. -/
theorem lt_of_exec_bcpy (h : exec (.bcpy dst src) s = .next t) (ht : t.halt = false) :
    s.halt = false ∧ dst.toNat < s.banks.length ∧ src.toNat < s.banks.length := by
  obtain ⟨hr, h⟩ := (whenRunning_next h).resolve_left (not_stopped ht)
  obtain ⟨o, ho, h⟩ := (withBankNo_next hr h).resolve_left (not_stopped ht)
  obtain ⟨p, hp, -⟩ := (withBankNo_next hr h).resolve_left (not_stopped ht)
  exact ⟨hr, (List.getElem?_eq_some_iff.mp ho).1, (List.getElem?_eq_some_iff.mp hp).1⟩

/-- After a copy to another bank number, the destination is what the source was. -/
theorem exec_bcpy_of_ne (hne : dst ≠ src) (hr : s.halt = false) (hd : dst.toNat < s.banks.length)
    (hs : src.toNat < s.banks.length) :
    exec (.bcpy dst src) s = .next ((s.putBank dst (s.bankAt src.toNat)).respond 0 0 []) := by
  rw [exec_bcpy_of_lt hr hd hs, if_neg hne]
  rfl

/-! ### The rollback -/

theorem exec_banks_length (h : exec i s = .next t) : t.banks.length = s.banks.length := by
  rcases exec_next h with hs | ha | ⟨-, d, o, -, -, -, rfl⟩
  · rw [hs.banks_eq]
  · rw [ha.banks_eq]
  · exact List.length_set

/-- Commands that do not write bank `b` keep it, and keep the number of banks. -/
theorem execAll_bankAt {is : List Instr} (h : execAll is s = .next t)
    (hb : ∀ i ∈ is, ∀ d, writtenBank i = some d → d ≠ b) :
    t.bankAt b.toNat = s.bankAt b.toNat ∧ t.banks.length = s.banks.length := by
  refine execAll_induction (P := fun u => u.bankAt b.toNat = s.bankAt b.toNat ∧ u.banks.length = s.banks.length)
    (fun i hi u v hu hv => ?_) ⟨rfl, rfl⟩ h
  have hkeep := banksAreIndependent i u v hv b.toNat fun d hd => mt BitVec.eq_of_toNat_eq (hb i hi d hd)
  exact ⟨(congrArg Option.join hkeep).trans hu.1, (exec_banks_length hv).trans hu.2⟩

/-- Settles O57: the snapshot holds the bank, the commands between keep the snapshot, and the copy back reads it. -/
theorem rollbackRestoresBank : Obligations.RollbackRestoresBank := by
  intro s t u v a snap is hr hne hsnap ht hw hrun hu hback
  obtain ⟨-, hlsnap, hla⟩ := lt_of_exec_bcpy hsnap ht
  have hlen := exec_banks_length hsnap
  rw [exec_bcpy_of_ne hne hr hlsnap hla] at hsnap
  obtain ⟨hkeep, hlen'⟩ := execAll_bankAt (b := snap) hrun fun i hi d hd => by
    rcases hw i hi with hn | ha
    · exact absurd (hn.symm.trans hd) (Option.some_ne_none d).symm
    · obtain rfl : a = d := Option.some.inj (ha.symm.trans hd)
      exact hne.symm
  rw [hlen] at hlen'
  rw [exec_bcpy_of_ne hne.symm hu (hlen' ▸ hla) (hlen' ▸ hlsnap)] at hback
  cases hsnap
  cases hback
  refine ⟨hu, ?_⟩
  rw [bankAt_written (hlen' ▸ hla), hkeep, bankAt_written hlsnap]

/-! ### Reads (R55) -/

/-- Two results of a reading command that differ in the responses delivered before, and agree in all it does. -/
inductive ReadsAlike (s : State) (rs : List Response) : Result → Result → Prop
  | answers (data : Word) (out : List Word) :
      ReadsAlike s rs (finish s data out) (finish { s with responses := rs } data out)
  | refuses (hh : s.halt = true) : ReadsAlike s rs (refuseHalted s) (refuseHalted { s with responses := rs })
  | raises (v : Violation) (hr : s.halt = false) : ReadsAlike s rs (raise s v) (raise { s with responses := rs } v)

namespace ReadsAlike

theorem of_whenRunning {r r' : Result} (h : s.halt = false → ReadsAlike s rs r r') :
    ReadsAlike s rs (whenRunning s r) (whenRunning { s with responses := rs } r') := by
  unfold whenRunning
  dsimp only
  by_cases hh : s.halt = true
  · rw [if_pos hh, if_pos hh]
    exact .refuses hh
  · rw [if_neg hh, if_neg hh]
    exact h (Bool.eq_false_iff.mpr hh)

theorem of_withBank {f f' : Bank → Result} (h : s.halt = false → ∀ bank, ReadsAlike s rs (f bank) (f' bank)) :
    ReadsAlike s rs (withBank s b f) (withBank { s with responses := rs } b f') := by
  refine of_whenRunning fun hr => ?_
  unfold withBankNo
  dsimp only
  rcases s.banks[b.toNat]? with _ | _ | bank
  · exact .raises _ hr
  · exact .raises _ hr
  · exact h hr bank

theorem of_withSlot {f f' : Bank → Slot → Result} (h : ∀ bank p, ReadsAlike s rs (f bank p) (f' bank p)) :
    ReadsAlike s rs (withSlot s b off sub f) (withSlot { s with responses := rs } b off sub f') := by
  refine of_withBank fun hr bank => ?_
  rcases bank.slots[slotIndex off sub]? with _ | p
  · exact .raises _ hr
  · exact h bank p

theorem of_withStat {f f' : Bank → Word → Result} (h : ∀ bank v, ReadsAlike s rs (f bank v) (f' bank v)) :
    ReadsAlike s rs (withStat s b k f) (withStat { s with responses := rs } b k f') := by
  refine of_withBank fun hr bank => ?_
  rcases bank.gr[k.toNat]? with _ | v
  · exact .raises _ hr
  · exact h bank v

theorem of_withSize {n : Nat} {f f' : Bank → Result} (h : ∀ bank, ReadsAlike s rs (f bank) (f' bank)) :
    ReadsAlike s rs (withSize s b n f) (withSize { s with responses := rs } b n f') := by
  refine of_withBank fun hr bank => ?_
  dsimp only
  split
  · exact h bank
  · exact .raises _ hr

end ReadsAlike

open ReadsAlike

/-- A reading command reads no response. -/
theorem exec_readsAlike (s : State) (rs : List Response) (hi : writtenBank i = none) :
    ReadsAlike s rs (exec i s) (exec i { s with responses := rs }) := by
  cases i with
  | pget | pest | pqry => exact of_withSlot fun _ _ => .answers _ _
  | tget off sub initId =>
    refine of_whenRunning fun hr => ?_
    dsimp only
    rcases romRow initId with _ | row
    · exact .raises _ hr
    rcases s.cfg.initRom[slotIndex off sub]? with _ | e
    · exact .raises _ hr
    · exact .answers _ _
  | tcnt | rnm => exact of_whenRunning fun _ => .answers _ _
  | tgrp g =>
    refine of_whenRunning fun hr => ?_
    dsimp only
    rcases s.cfg.groups[g.toNat]? with _ | set
    · exact .raises _ hr
    · exact .answers _ _
  | smrg sets =>
    refine of_whenRunning fun hr => ?_
    rcases sets with _ | ⟨w, ws⟩
    · exact .raises _ hr
    dsimp only
    rcases (w :: ws).find? fun v => !validSet s.cfg v with _ | bad
    · exact .answers _ _
    · exact .raises _ hr
  | bsv => exact of_withSize fun _ => .answers _ _
  | grrd => exact of_withStat fun _ _ => .answers _ _
  | rdsr n =>
    have hreg : statusRegister { s with responses := rs } n = statusRegister s n := rfl
    change ReadsAlike s rs (execRdsr n s) (execRdsr n { s with responses := rs })
    unfold execRdsr
    rw [hreg]
    rcases statusRegister s n with _ | v
    · exact of_whenRunning fun hr => .raises _ hr
    · exact .answers _ _
  | _ => cases hi

/-- Settles O24: what a read answers depends on no response (`exec_readsAlike`), so it answers the same again. -/
theorem readsChangeNothing : Obligations.ReadsChangeNothing := by
  intro i s t hi h ht
  have hread := exec_readsAlike s t.responses hi
  rw [h] at hread
  generalize hr : Host.Outcome.next t = r at hread
  generalize hr' : exec i { s with responses := t.responses } = r' at hread
  cases hread with
  | answers data out =>
    cases hr
    exact ⟨0, data, out, respond_eq_answered .., .inl rfl, hr'.trans (finish_eq ..)⟩
  | refuses hh =>
    cases hr
    exact ⟨0xFF, _, [], respond_eq_answered .., .inr ⟨rfl, hh⟩,
      hr'.trans (congrArg Host.Outcome.next (respond_eq_answered (s.respond _ _ _) _ _ _))⟩
  | raises v hrun =>
    cases hr
    exact absurd (hrun.symm.trans ht.symm) Bool.false_ne_true

end Sys2Proof.Machine
end

section
/-! Writes that are idempotent (20_memory.md R55): executed again, they write what is there. -/

namespace Sys2Proof.Machine

variable {s t : State} {i : Instr} {b dst src : BankNo} {off sub size k : Half}

/-! ### Writing what is there -/

@[simp] theorem putSlots_cfg (bank : Bank) (slots : List Slot) : (s.putSlots b bank slots).cfg = s.cfg := rfl

/-- Writing the bank that is there changes nothing. -/
theorem putBank_self {o : Option Bank} (h : s.banks[b.toNat]? = some o) : s.putBank b o = s := by
  obtain ⟨hlt, rfl⟩ := List.getElem?_eq_some_iff.mp h
  rw [State.putBank, List.set_getElem_self hlt]

/-- The entry of the bank array that a command wrote. -/
theorem getElem?_banks_written (h : b.toNat < s.banks.length) (o : Option Bank) :
    ((s.putBank b o).respond 0 0 []).banks[b.toNat]? = some o :=
  List.getElem?_set_self h

/-- Writing again what was written last changes nothing. -/
theorem putBank_written (h : b.toNat < s.banks.length) (o : Option Bank) :
    ((s.putBank b o).respond 0 0 []).putBank b o = (s.putBank b o).respond 0 0 [] :=
  putBank_self (getElem?_banks_written h o)

/-- A command after the check of a bank number repeats, where it writes the same whatever is there. -/
theorem withBankNo_repeats {o : Option Bank}
    (h : whenRunning s (withBankNo s b fun _ => done (s.putBank b o)) = .next t) (ht : t.halt = false) : whenRunning t (withBankNo t b fun _ => done (t.putBank b o)) = done t := by
  obtain ⟨hr, h⟩ := (whenRunning_next h).resolve_left (not_stopped ht)
  obtain ⟨p, hp, h⟩ := (withBankNo_next hr h).resolve_left (not_stopped ht)
  cases h
  have hlt := (List.getElem?_eq_some_iff.mp hp).1
  rw [whenRunning_running ht, withBankNo_of_get (getElem?_banks_written hlt o), putBank_written hlt]

/-- A command after the checks of a slot repeats, where its body writes the same slot again. -/
theorem withSlot_repeats {f f' : Bank → Slot → Result} (h : withSlot s b off sub f = .next t) (ht : t.halt = false)
    (hf : ∀ bank p, f bank p = .next t → ∃ q, t = (s.putSlot b bank off sub q).respond 0 0 [] ∧
      ∀ bank', f' bank' q = done (t.putSlot b bank' off sub q)) : withSlot t b off sub f' = done t := by
  obtain ⟨-, bank, p, hb, hp, h⟩ := (withSlot_next h).resolve_left (not_stopped ht)
  obtain ⟨q, rfl, hq⟩ := hf bank p h
  have hbank := bankAt_written (bankAt_lt hb) (some { bank with slots := bank.slots.set (slotIndex off sub) q })
  have hslot : (bank.slots.set (slotIndex off sub) q)[slotIndex off sub]? = some q :=
    List.getElem?_set_self (List.getElem?_eq_some_iff.mp hp).1
  rw [withSlot_of_slotAt ht hbank hslot, hq]
  simp only [State.putSlot, State.putSlots, List.set_set, putBank_written (bankAt_lt hb)]

/-! ### Lists of slots -/

/-- Writing elements from a list twice is writing them once, where writing one is. -/
theorem zipWith_zipWith_self {α β : Type} {f : α → β → β} (hf : ∀ a x, f a (f a x) = f a x) (l : List α) (xs : List β) :
    List.zipWith f l (List.zipWith f l xs) = List.zipWith f l xs := by
  induction l generalizing xs with
  | nil => rfl
  | cons a l ih =>
    cases xs with
    | nil => rfl
    | cons x xs => rw [List.zipWith_cons_cons, List.zipWith_cons_cons, hf, ih]

/-- Copying a range twice is copying it once. -/
theorem copyRange_copyRange {o n : Nat} {ds ss : List Slot} (h : o + n ≤ ds.length) (hl : ss.length = ds.length) :
    copyRange o n (copyRange o n ds ss) ss = copyRange o n ds ss := by
  have hlen := copyRange_length h hl
  refine List.ext_getElem? fun j => ?_
  rw [copyRange_getElem? (hlen ▸ h) (hl.trans hlen.symm), copyRange_getElem? h hl]
  split <;> rfl

/-! ### Command by command -/

theorem exec_binit_eq {bank : Bank} {qp initId : Byte} {row : RomRow} (hr : s.halt = false)
    (hb : s.bankAt b.toNat = some bank) (hrow : seedRow initId = some row)
    (hgood : firstBadRate s.cfg 0 (s.cfg.initRom.map ContextEntry.rate) = none) :
    exec (.binit b qp initId) s = done (s.putSlots b bank (s.cfg.initRom.map (romSlot s.cfg qp row))) := by
  simp only [exec, execBinit, withBank_of_bankAt hr hb, hrow, hgood]

/-- A BINIT that did not stop found a live bank, a seed row and only valid rates. -/
theorem of_exec_binit {qp initId : Byte} (h : exec (.binit b qp initId) s = .next t) (ht : t.halt = false) :
    s.halt = false ∧ ∃ bank row, s.bankAt b.toNat = some bank ∧ seedRow initId = some row ∧
      firstBadRate s.cfg 0 (s.cfg.initRom.map ContextEntry.rate) = none := by
  obtain ⟨hr, bank, hb, h⟩ := (withBank_next h).resolve_left (not_stopped ht)
  split at h
  · exact absurd (raise_next hr h) (not_stopped ht)
  split at h
  · exact absurd (raise_next hr h) (not_stopped ht)
  · exact ⟨hr, bank, _, hb, ‹_›, ‹_›⟩

theorem exec_binit_repeats {qp initId : Byte} (h : exec (.binit b qp initId) s = .next t) (ht : t.halt = false) :
    exec (.binit b qp initId) t = done t := by
  obtain ⟨hr, bank, row, hb, hrow, hgood⟩ := of_exec_binit h ht
  rw [exec_binit_eq hr hb hrow hgood] at h
  cases h
  rw [exec_binit_eq ht (bankAt_written (bankAt_lt hb) _) hrow hgood]
  exact congrArg done (putBank_written (bankAt_lt hb) _)

theorem exec_bwin_eq {bank : Bank} {rates : List Word} (hr : s.halt = false) (hb : s.bankAt b.toNat = some bank)
    (hn : rates.length = s.cfg.nctx) (hgood : firstBadRate s.cfg 0 (rates.map rateOfWord) = none) :
    exec (.bwin b rates) s = done (s.putSlots b bank (List.zipWith rateSlot rates bank.slots)) := by
  simp only [exec, execBwin, withSize_of_eq hr hb hn, hgood]

theorem exec_bwin_repeats {rates : List Word} (h : exec (.bwin b rates) s = .next t) (ht : t.halt = false) :
    exec (.bwin b rates) t = done t := by
  obtain ⟨hr, bank, hb, hn, h⟩ := (withSize_next h).resolve_left (not_stopped ht)
  split at h
  · exact absurd (raise_next hr h) (not_stopped ht)
  rename_i hgood
  cases h
  rw [exec_bwin_eq ht (bankAt_written (bankAt_lt hb) _) hn hgood]
  dsimp only
  rw [zipWith_zipWith_self (f := rateSlot) fun _ _ => rfl]
  exact congrArg done (putBank_written (bankAt_lt hb) _)

theorem exec_bld_eq {bank : Bank} {words : List Word} (hr : s.halt = false) (hb : s.bankAt b.toNat = some bank)
    (hn : words.length = s.cfg.nctx) :
    exec (.bld b words) s = done (s.putSlots b bank (List.zipWith (storeWord s.cfg) words bank.slots)) :=
  withSize_of_eq hr hb hn _

theorem exec_bld_repeats {words : List Word} (h : exec (.bld b words) s = .next t) (ht : t.halt = false) :
    exec (.bld b words) t = done t := by
  obtain ⟨hr, bank, hb, hn, h⟩ := (withSize_next h).resolve_left (not_stopped ht)
  cases h
  rw [exec_bld_eq ht (bankAt_written (bankAt_lt hb) _) hn]
  dsimp only [respond_cfg, putSlots_cfg]
  rw [zipWith_zipWith_self (f := storeWord s.cfg) fun _ _ => rfl]
  exact congrArg done (putBank_written (bankAt_lt hb) _)

theorem exec_grwr_repeats {value : Word} (h : exec (.grwr b k value) s = .next t) (ht : t.halt = false) :
    exec (.grwr b k value) t = done t := by
  obtain ⟨hr, bank, v, hb, hv, h⟩ := (withStat_next h).resolve_left (not_stopped ht)
  cases h
  have hbank := bankAt_after_putStat hb k value
  have hstat : (bank.gr.set k.toNat value)[k.toNat]? = some value :=
    List.getElem?_set_self (List.getElem?_eq_some_iff.mp hv).1
  refine (withStat_of_get ht hbank hstat _).trans (congrArg done ?_)
  simp only [State.putStat, List.set_set, putBank_written (bankAt_lt hb)]

theorem exec_bcpy_repeats (h : exec (.bcpy dst src) s = .next t) (ht : t.halt = false) :
    exec (.bcpy dst src) t = done t := by
  obtain ⟨hr, hd, hs⟩ := lt_of_exec_bcpy h ht
  have hlen := exec_banks_length h
  rw [exec_bcpy_of_lt ht (hlen ▸ hd) (hlen ▸ hs)]
  by_cases hne : dst = src
  · rw [if_pos hne]
  · rw [exec_bcpy_of_ne hne hr hd hs] at h
    cases h
    rw [if_neg hne, bankAt_respond, bankAt_putBank_ne _ _ (mt BitVec.eq_of_toNat_eq (Ne.symm hne)), putBank_written hd]

/-- A BCPR that did not stop found both banks live. -/
theorem live_of_exec_bcpr (h : exec (.bcpr dst src off size) s = .next t) (ht : t.halt = false) :
    s.halt = false ∧ ∃ bd bs, s.bankAt dst.toNat = some bd ∧ s.bankAt src.toNat = some bs := by
  obtain ⟨hr, h⟩ := (whenRunning_next h).resolve_left (not_stopped ht)
  obtain ⟨od, hd, h⟩ := (withBankNo_next hr h).resolve_left (not_stopped ht)
  obtain ⟨os, hs, h⟩ := (withBankNo_next hr h).resolve_left (not_stopped ht)
  obtain ⟨bd, rfl, h⟩ := (withLive_next (o := od) hr h).resolve_left (not_stopped ht)
  obtain ⟨bs, rfl, -⟩ := (withLive_next (o := os) hr h).resolve_left (not_stopped ht)
  exact ⟨hr, bd, bs, bankAt_eq_some.mpr hd, bankAt_eq_some.mpr hs⟩

theorem exec_bcpr_repeats (hs : s.Shape) (h : exec (.bcpr dst src off size) s = .next t) (ht : t.halt = false) :
    exec (.bcpr dst src off size) t = done t := by
  obtain ⟨hr, bd, bs, hd, hsrc⟩ := live_of_exec_bcpr h ht
  rw [exec_bcpr_live off size hr hd hsrc] at h
  split at h
  case isFalse => exact absurd (raise_next hr h) (not_stopped ht)
  case isTrue hle =>
    by_cases hne : dst = src
    · rw [if_pos hne] at h
      cases h
      rw [exec_bcpr_live off size ht hd hsrc, if_pos hne]
      exact if_pos hle
    · rw [if_neg hne] at h
      cases h
      have hsrc' := (bankAt_putBank_ne dst (some { bd with slots := copyRange off.toNat size.toNat bd.slots bs.slots })
        (mt BitVec.eq_of_toNat_eq (Ne.symm hne))).trans hsrc
      rw [exec_bcpr_live off size ht (bankAt_written (bankAt_lt hd) _) hsrc', if_neg hne]
      refine (if_pos hle).trans (congrArg done ?_)
      dsimp only
      rw [copyRange_copyRange (hs.slots hd ▸ hle) ((hs.slots hsrc).trans (hs.slots hd).symm)]
      exact putBank_written (bankAt_lt hd) _

/-- A command that writes, but for PUPD, executed again only answers. -/
theorem exec_repeats (hi : ∀ b off sub bin, i ≠ .pupd b off sub bin) (hw : writtenBank i ≠ none) (hs : s.Shape)
    (h : exec i s = .next t) (ht : t.halt = false) : exec i t = done t := by
  cases i with
  | pinit =>
    refine withSlot_repeats h ht fun bank p h => ?_
    cases h
    exact ⟨_, rfl, fun _ => rfl⟩
  | prate =>
    refine withSlot_repeats h ht fun bank p h => ?_
    split at h
    · rename_i hv
      cases h
      exact ⟨_, rfl, fun _ => if_pos hv⟩
    · cases h
      cases ht
  | pset =>
    refine withSlot_repeats h ht fun bank p h => ?_
    cases h
    exact ⟨_, rfl, fun _ => rfl⟩
  | bnew =>
    rw [exec, execBnew, exec_cfg h]
    exact withBankNo_repeats h ht
  | bfree => exact withBankNo_repeats h ht
  | binit => exact exec_binit_repeats h ht
  | bcpy => exact exec_bcpy_repeats h ht
  | bcpr => exact exec_bcpr_repeats hs h ht
  | bwin => exact exec_bwin_repeats h ht
  | bld => exact exec_bld_repeats h ht
  | grwr => exact exec_grwr_repeats h ht
  | pupd => exact absurd rfl (hi _ _ _ _)
  | _ => exact absurd rfl hw

/-- Settles O25: a read only answers, and a write writes again what is there (`exec_repeats`). -/
theorem writesAreIdempotent : Obligations.WritesAreIdempotent := by
  intro i s t u hi hr hs h ht hu
  by_cases hw : writtenBank i = none
  · obtain ⟨st, data, out, -, hst, hrep⟩ := readsChangeNothing i s t hw h (ht.trans hr.symm)
    have h0 : st = 0 := hst.resolve_right fun hh => Bool.false_ne_true (hr.symm.trans hh.2)
    rw [hu, h0] at hrep
    exact ⟨data, out, Host.Outcome.next.inj hrep⟩
  · rw [exec_repeats hi hw hs h ht, done, finish_eq] at hu
    exact ⟨0, [], (Host.Outcome.next.inj hu).symm⟩

end Sys2Proof.Machine
end

section
/-! Two commands in a row: updates of different slots (70_reset_and_hazards.md R247), PSET then PGET, PINIT then PRATE
against BINIT (41_probability_model.md sections 2 and 5), and BSV then BLD (43_context_banks.md section 5). -/

namespace Sys2Proof.Machine

variable {s t : State} {b c : BankNo} {off sub off' sub' : Half} {p q : Slot} {n m j k : Nat}

/-! ### Updates of different slots (R247) -/

/-- Slot `(n, j)`, where there is one, replaced. -/
def State.setSlot (s : State) (n j : Nat) (q : Slot) : State :=
  { s with banks := s.banks.modify n (Option.map fun bank => { bank with slots := bank.slots.set j q }) }

/-- Writing one slot of a live bank replaces that slot. -/
theorem putSlot_eq_setSlot {bank : Bank} (hb : s.bankAt b.toNat = some bank) (off sub : Half) (q : Slot) :
    s.putSlot b bank off sub q = s.setSlot b.toNat (off.toNat + sub.toNat) q := by
  rw [State.setSlot, List.modify_eq_set_getElem?, bankAt_eq_some.mp hb]
  rfl

/-- Replacing two different slots commutes. -/
theorem setSlot_comm (s : State) (h : n ≠ m ∨ j ≠ k) :
    (s.setSlot n j p).setSlot m k q = (s.setSlot m k q).setSlot n j p := by
  refine congrArg (fun banks => { s with banks := banks }) ?_
  by_cases hn : n = m
  · subst hn
    have hj : j ≠ k := h.resolve_left fun h => h rfl
    dsimp only [State.setSlot]
    rw [List.modify_modify_eq, List.modify_modify_eq]
    congr 1
    funext o
    cases o with
    | none => rfl
    | some bank => simp [List.set_comm _ _ hj]
  · exact List.modify_modify_ne _ _ _ hn

theorem exec_pupd_eq {pair : RatePair} (bin : Bool) (hr : s.halt = false)
    (hp : s.slotAt b.toNat (off.toNat + sub.toNat) = some p) (hpair : ratePair s.cfg p.w = some pair) :
    exec (.pupd b off sub bin) s =
      .next ((s.setSlot b.toNat (off.toNat + sub.toNat) (updateSlot s.cfg pair bin p)).respond 0 0 []) := by
  obtain ⟨bank, hb, hg⟩ := slotAt_eq_some hp
  rw [exec, execPupd, withSlot_of_slotAt hr hb hg, hpair, ← putSlot_eq_setSlot hb]
  rfl

/-- Two updates in a row: the second finds its slot as it was. -/
theorem execAll_pupd_pupd {pairP pairQ : RatePair} (x y : Bool) (hr : s.halt = false)
    (hp : s.slotAt b.toNat (off.toNat + sub.toNat) = some p) (hq : s.slotAt c.toNat (off'.toNat + sub'.toNat) = some q)
    (hne : c.toNat ≠ b.toNat ∨ off'.toNat + sub'.toNat ≠ off.toNat + sub.toNat)
    (hpairP : ratePair s.cfg p.w = some pairP) (hpairQ : ratePair s.cfg q.w = some pairQ) :
    execAll [.pupd b off sub x, .pupd c off' sub' y] s =
      .next ((((s.setSlot b.toNat (off.toNat + sub.toNat) (updateSlot s.cfg pairP x p)).setSlot c.toNat
        (off'.toNat + sub'.toNat) (updateSlot s.cfg pairQ y q)).respond 0 0 []).respond 0 0 []) := by
  have hfirst := exec_pupd_eq x hr hp hpairP
  have hq' := (exec_slotAt_of_ne rfl hfirst hne).trans hq
  have hsecond := exec_pupd_eq (pair := pairQ) y (by exact hr) hq' (by exact hpairQ)
  simp only [execAll, hfirst, hsecond]
  rfl

/-- Settles O26: both orders replace the same two slots (`setSlot_comm`). -/
theorem updatesOfDifferentSlotsCommute : Obligations.UpdatesOfDifferentSlotsCommute := by
  intro s b c off sub off' sub' x y p q hr hp hq hne hvp hvq
  obtain ⟨pairP, hpairP⟩ := Option.isSome_iff_exists.mp hvp
  obtain ⟨pairQ, hpairQ⟩ := Option.isSome_iff_exists.mp hvq
  have hne' := hne.imp_left (mt BitVec.eq_of_toNat_eq)
  refine ⟨_, _, execAll_pupd_pupd x y hr hp hq (hne'.imp Ne.symm Ne.symm) hpairP hpairQ,
    execAll_pupd_pupd y x hr hq hp hne' hpairQ hpairP, ?_, hr⟩
  rw [setSlot_comm s hne']

/-! ### PSET, then PGET -/

theorem masked_toNat {v : Nat} (hv : v < 2 ^ 15) (prec : Nat) : (masked v prec).toNat = v &&& maskOf prec := by
  rw [masked, BitVec.toNat_ofNat, Nat.mod_eq_of_lt (Nat.and_le_left.trans_lt hv)]

theorem CompletesOnSlot.slotAt_self (h : CompletesOnSlot s t n j q) : t.slotAt n j = some q := h.1

theorem CompletesOnSlot.halt_eq (h : CompletesOnSlot s t n j q) : t.halt = s.halt := by
  obtain ⟨-, ⟨-, ⟨-, -, -, hh⟩, -⟩, -⟩ := h
  exact hh

theorem CompletesOnSlot.cfg_eq (h : CompletesOnSlot s t n j q) : t.cfg = s.cfg := by
  obtain ⟨-, ⟨-, -, ⟨hc, -⟩, -⟩, -⟩ := h
  exact hc

/-- Settles O55: PGET reads the slot that PSET left. -/
theorem psetThenPgetReturnsMaskedWord : Obligations.PsetThenPgetReturnsMaskedWord := by
  intro s b off sub word p hr hp
  obtain ⟨t, ht, hc⟩ := psetStoresMaskedWord s b off sub word p hr hp
  refine ⟨t, ht, ?_⟩
  rw [pgetReturnsStateWord t b off sub _ (hc.halt_eq.trans hr) hc.slotAt_self, masked_toNat (Nat.mod_lt _ (by decide)),
    masked_toNat (Nat.mod_lt _ (by decide))]

/-! ### BINIT against PINIT and PRATE -/

theorem exec_pinit_completes (qp seed : Byte) (hr : s.halt = false)
    (hp : s.slotAt b.toNat (off.toNat + sub.toNat) = some p) : ∃ t, exec (.pinit b off sub qp seed) s = .next t ∧
      CompletesOnSlot s t b.toNat (off.toNat + sub.toNat) (seedSlot s.cfg qp seed p) :=
  withSlot_completes hr hp fun _ => rfl

theorem exec_prate_completes {rate : Byte} (hr : s.halt = false)
    (hp : s.slotAt b.toNat (off.toNat + sub.toNat) = some p) (hv : validRate s.cfg rate = true) :
    ∃ t, exec (.prate b off sub rate) s = .next t ∧
      CompletesOnSlot s t b.toNat (off.toNat + sub.toNat) { p with w := rate } :=
  withSlot_completes hr hp fun _ => if_pos hv

/-- PINIT, then PRATE with a valid rate: both complete, and the slot is seeded and rated. -/
theorem execAll_pinit_prate {qp seed rate : Byte} (hr : s.halt = false)
    (hp : s.slotAt b.toNat (off.toNat + sub.toNat) = some p) (hv : validRate s.cfg rate = true)
    (h : execAll [.pinit b off sub qp seed, .prate b off sub rate] s = .next t) :
    t.halt = false ∧ t.slotAt b.toNat (off.toNat + sub.toNat) = some { seedSlot s.cfg qp seed p with w := rate } := by
  obtain ⟨u, hu, hcu⟩ := exec_pinit_completes qp seed hr hp
  have hru := hcu.halt_eq.trans hr
  obtain ⟨v, hv, hcv⟩ := exec_prate_completes hru hcu.slotAt_self (hcu.cfg_eq ▸ hv)
  simp only [execAll, hu, hv] at h
  cases h
  exact ⟨hcv.halt_eq.trans hru, hcv.slotAt_self⟩

/-- Settles O56: a BINIT that completed found valid rates, and its slot is the one that PINIT and PRATE leave. -/
theorem binitIsPinitThenPrate : Obligations.BinitIsPinitThenPrate := by
  intro s t u b off sub qp initId seed e hr hs he hseed hbinit ht hrun
  obtain ⟨-, bank, row, hb, hrow, hgood⟩ := of_exec_binit hbinit ht
  obtain ⟨t', ht', -, hslots, -⟩ := exec_binit_completes (qp := qp) hr hb hrow hgood
  obtain rfl : t' = t := Host.Outcome.next.inj (ht'.symm.trans hbinit)
  have hlt : off.toNat + sub.toNat < bank.slots.length :=
    hs.slots hb ▸ (List.getElem?_eq_some_iff.mp he).1
  have hp := (slotAt_eq hb _).trans (List.getElem?_eq_getElem hlt)
  have hv : validRate s.cfg e.rate = true :=
    valid_of_firstBadRate hgood _ (List.mem_map_of_mem (List.mem_of_getElem? he))
  obtain ⟨hu, hslot⟩ := execAll_pinit_prate hr hp hv hrun
  have hbyte : romByte row e = seed := by
    rw [← map_romByte_seedRow, hrow, Option.map_some] at hseed
    exact Option.some.inj hseed
  refine ⟨hu, ?_⟩
  rw [hslots, List.getElem?_map, he, Option.map_some, hslot, romSlot, hbyte]
  rfl

/-! ### BSV, then BLD -/

/-- A state word stored where the mask invariant holds gives the estimates back. -/
theorem storeWord_stateWord {cfg : Config} (hm : p.Masked cfg) (q : Slot) :
    storeWord cfg (stateWord p) q = { p with w := q.w } := by
  have h0 : (stateWord p).extractLsb' 0 15 = p.p0 := BitVec.extractLsb'_append_eq_right
  have h1 : (stateWord p).extractLsb' 16 15 = p.p1 := by
    apply BitVec.eq_of_toNat_eq
    have := p.p0.isLt; have := p.p1.isLt
    rw [toNat_slice, stateWord_eq, BitVec.toNat_ofNat]
    omega
  rw [storeWord, h0, h1, and_mask_of_outside_zero hm.1, and_mask_of_outside_zero hm.2]

theorem exec_bsv_eq {bank : Bank} {len : Half} (hr : s.halt = false) (hb : s.bankAt b.toNat = some bank)
    (hn : len.toNat = s.cfg.nctx) : exec (.bsv b len) s = .next (answered s 0 0 (bank.slots.map stateWord)) :=
  (withSize_of_eq hr hb hn _).trans (finish_eq _ _)

theorem answered_out_inj {st : Byte} {data : Word} {out out' : List Word}
    (h : answered s st data out = answered s st data out') : out = out' := by
  simpa [answered, rsp] using congrArg State.responses h

/-- Settles O58: BLD stores the words of BSV, and each gives its slot's estimates back (`storeWord_stateWord`). -/
theorem saveThenLoadTransplantsStates : Obligations.SaveThenLoadTransplantsStates := by
  intro s t b c len out hr hs hm hlb hlc hn hbsv hbld
  obtain ⟨bb, hb⟩ := liveAt_eq_true hlb
  obtain ⟨bc, hc⟩ := liveAt_eq_true hlc
  have hout : out = bb.slots.map stateWord :=
    answered_out_inj (Host.Outcome.next.inj (hbsv.symm.trans (exec_bsv_eq hr hb hn)))
  have hlen : out.length = s.cfg.nctx := by rw [hout, List.length_map, hs.slots hb]
  obtain ⟨t', ht', ⟨-, ⟨-, -, -, hh⟩, -⟩, hslots, -⟩ : ∃ t, exec (.bld c out) (answered s 0 0 out) = .next t ∧
      CompletesOnSlots (answered s 0 0 out) t c.toNat (List.zipWith (storeWord s.cfg) out bc.slots) :=
    withSize_completes hr hc hlen rfl
  obtain rfl : t' = t := Host.Outcome.next.inj (ht'.symm.trans hbld)
  refine ⟨hh.trans hr, fun i p q hp hq => ?_⟩
  rw [hslots, ← storeWord_stateWord (hm _ _ _ hp)]
  rw [slotAt_eq hb] at hp
  rw [slotAt_eq hc] at hq
  exact List.getElem?_zipWith_eq_some.mpr ⟨stateWord p, q, by rw [hout, List.getElem?_map, hp]; rfl, hq, rfl⟩

end Sys2Proof.Machine
end
